-- ==== Sys2Proof/Word.lean ====
section
/-! DEFINITION. The words of the machine: a byte, a 16-bit word, and the small indexes the spec counts with. -/

namespace Sys2Proof

/-- An 8-bit unsigned value (R7, R21): a general register, a timer, a memory byte. -/
abbrev Byte := BitVec 8

/-- A 16-bit unsigned value (R5, R23, R24): an opcode, `I`, `PC`, a return address. -/
abbrev Word := BitVec 16

/-- The index of a general register, 0 to 15 (R6, R21). -/
abbrev Reg := Fin 16

/-- A virtual key, 0 to 15 (R4, R164, R184). -/
abbrev Key := Fin 16

/-- The index of the flag register `VF` (R22). -/
abbrev regF : Reg := 15

end Sys2Proof
end

