-- ==== Sys2Proof/Syntax.lean ====
section
/-! DEFINITION. The instructions: one constructor for each row of spec/opcode_table.json (R75), operands as R73 gives them. -/

namespace Sys2Proof

/-- The 35 instructions of Table 30-2 and the catch-all `UNDEF`, in the table's order (R74, R75).
`x` and `y` are register indexes, `nn` an 8-bit immediate, `nnn` a 12-bit one, `n` a row count (R6, R73). -/
inductive Instr where
  /-- `00E0`, R153. -/
  | cls
  /-- `00EE`, R101. -/
  | ret
  /-- `0NNN` other than the two above, R100. -/
  | sys (nnn : BitVec 12)
  /-- `1NNN`, R102. -/
  | jp (nnn : BitVec 12)
  /-- `2NNN`, R103. -/
  | call (nnn : BitVec 12)
  /-- `3XNN`, R104. -/
  | seImm (x : Reg) (nn : Byte)
  /-- `4XNN`, R105. -/
  | sneImm (x : Reg) (nn : Byte)
  /-- `5XY0`, R106. -/
  | seReg (x y : Reg)
  /-- `6XNN`, R120. -/
  | ldImm (x : Reg) (nn : Byte)
  /-- `7XNN`, R121. -/
  | addImm (x : Reg) (nn : Byte)
  /-- `8XY0`, R122. -/
  | ldReg (x y : Reg)
  /-- `8XY1`, R123. -/
  | or (x y : Reg)
  /-- `8XY2`, R124. -/
  | and (x y : Reg)
  /-- `8XY3`, R125. -/
  | xor (x y : Reg)
  /-- `8XY4`, R126. -/
  | addReg (x y : Reg)
  /-- `8XY5`, R127. -/
  | sub (x y : Reg)
  /-- `8XY6`, R128. -/
  | shr (x y : Reg)
  /-- `8XY7`, R129. -/
  | subn (x y : Reg)
  /-- `8XYE`, R130. -/
  | shl (x y : Reg)
  /-- `9XY0`, R107. -/
  | sneReg (x y : Reg)
  /-- `ANNN`, R140. -/
  | ldI (nnn : BitVec 12)
  /-- `BNNN`, R108. -/
  | jpV0 (nnn : BitVec 12)
  /-- `CXNN`, R131. -/
  | rnd (x : Reg) (nn : Byte)
  /-- `DXYN`, R154. -/
  | drw (x y : Reg) (n : Fin 16)
  /-- `EX9E`, R160. -/
  | skp (x : Reg)
  /-- `EXA1`, R161. -/
  | sknp (x : Reg)
  /-- `FX07`, R165. -/
  | ldVxDt (x : Reg)
  /-- `FX0A`, R163. -/
  | ldVxK (x : Reg)
  /-- `FX15`, R166. -/
  | ldDtVx (x : Reg)
  /-- `FX18`, R167. -/
  | ldStVx (x : Reg)
  /-- `FX1E`, R141. -/
  | addI (x : Reg)
  /-- `FX29`, R142. -/
  | ldF (x : Reg)
  /-- `FX33`, R143. -/
  | ldB (x : Reg)
  /-- `FX55`, R144. -/
  | stRegs (x : Reg)
  /-- `FX65`, R145. -/
  | ldRegs (x : Reg)
  /-- Any word that selects no row, R109; it carries the word itself. -/
  | undef (op : Word)
  deriving DecidableEq, Repr

end Sys2Proof
end

