-- ==== Sys2Proof/WellFormed.lean ====
section
/-! DEFINITION. Which instruction terms some opcode stands for (R74, R76, R77). Every operand value is legal by itself
(R79); only the two shared regions of the opcode map need a check. -/

namespace Sys2Proof

/-- The unrecognised words, as R77 lists them family by family (not read from the decoder's table). -/
def unrecognised (op : Word) : Bool :=
  let n := op.toNat % 16
  let nn := op.toNat % 256
  match op.toNat / 4096 with
  | 5 => n != 0
  | 8 => [0x8, 0x9, 0xA, 0xB, 0xC, 0xD, 0xF].contains n
  | 9 => n != 0
  | 14 => !([0x9E, 0xA1].contains nn)
  | 15 => !([0x07, 0x0A, 0x15, 0x18, 0x1E, 0x29, 0x33, 0x55, 0x65].contains nn)
  | _ => false

/-- An instruction term is well formed when some opcode decodes to it: `SYS` excludes the words of `CLS` and `RET`
(R76), and `UNDEF` carries an unrecognised word (R77). -/
def Instr.wellFormed : Instr → Bool
  | .sys nnn => nnn != 0x0E0 && nnn != 0x0EE
  | .undef op => unrecognised op
  | .cls | .ret => true
  | .jp _ | .call _ | .ldI _ | .jpV0 _ => true
  | .seImm _ _ | .sneImm _ _ | .ldImm _ _ | .addImm _ _ | .rnd _ _ => true
  | .seReg _ _ | .sneReg _ _ | .ldReg _ _ => true
  | .or _ _ | .and _ _ | .xor _ _ => true
  | .addReg _ _ | .sub _ _ | .subn _ _ | .shr _ _ | .shl _ _ => true
  | .drw _ _ _ => true
  | .skp _ | .sknp _ | .ldVxDt _ | .ldVxK _ | .ldDtVx _ | .ldStVx _ => true
  | .addI _ | .ldF _ | .ldB _ | .stRegs _ | .ldRegs _ => true

end Sys2Proof
end

