-- ==== Sys2Proof/Decode.lean ====
section
/-! DEFINITION. The decoder and the encoder (R70 to R78): Table 30-2 as a list of rows tried in order, and the words
of the instructions written from the same table. -/

namespace Sys2Proof

/-! ### Fields of an opcode (R71) -/

/-- `X = op[11:8]`. -/
def fieldX (op : Word) : Reg := ⟨op.toNat / 256 % 16, Nat.mod_lt _ (by decide)⟩

/-- `Y = op[7:4]`. -/
def fieldY (op : Word) : Reg := ⟨op.toNat / 16 % 16, Nat.mod_lt _ (by decide)⟩

/-- `N = op[3:0]`. -/
def fieldN (op : Word) : Fin 16 := ⟨op.toNat % 16, Nat.mod_lt _ (by decide)⟩

/-- `NN = op[7:0]`. -/
def fieldNN (op : Word) : Byte := BitVec.ofNat 8 op.toNat

/-- `NNN = op[11:0]`. -/
def fieldNNN (op : Word) : BitVec 12 := BitVec.ofNat 12 op.toNat

/-! ### The opcode table (R75) -/

/-- One row of Table 30-2: the row's mask and match, and the instruction its fields give. -/
structure Row where
  mask  : Word
  value : Word
  build : Word → Instr

/-- A row is selected when `(op & mask) = match` (R74). -/
def Row.selects (r : Row) (op : Word) : Bool := op &&& r.mask == r.value

/-- Rows 1 to 9 of Table 30-2. -/
def rowsLow : List Row := [
  ⟨0xFFFF, 0x00E0, fun _ => .cls⟩,
  ⟨0xFFFF, 0x00EE, fun _ => .ret⟩,
  ⟨0xF000, 0x0000, fun op => .sys (fieldNNN op)⟩,
  ⟨0xF000, 0x1000, fun op => .jp (fieldNNN op)⟩,
  ⟨0xF000, 0x2000, fun op => .call (fieldNNN op)⟩,
  ⟨0xF000, 0x3000, fun op => .seImm (fieldX op) (fieldNN op)⟩,
  ⟨0xF000, 0x4000, fun op => .sneImm (fieldX op) (fieldNN op)⟩,
  ⟨0xF00F, 0x5000, fun op => .seReg (fieldX op) (fieldY op)⟩,
  ⟨0xF000, 0x6000, fun op => .ldImm (fieldX op) (fieldNN op)⟩]

/-- Rows 10 to 20 of Table 30-2. -/
def rowsAlu : List Row := [
  ⟨0xF000, 0x7000, fun op => .addImm (fieldX op) (fieldNN op)⟩,
  ⟨0xF00F, 0x8000, fun op => .ldReg (fieldX op) (fieldY op)⟩,
  ⟨0xF00F, 0x8001, fun op => .or (fieldX op) (fieldY op)⟩,
  ⟨0xF00F, 0x8002, fun op => .and (fieldX op) (fieldY op)⟩,
  ⟨0xF00F, 0x8003, fun op => .xor (fieldX op) (fieldY op)⟩,
  ⟨0xF00F, 0x8004, fun op => .addReg (fieldX op) (fieldY op)⟩,
  ⟨0xF00F, 0x8005, fun op => .sub (fieldX op) (fieldY op)⟩,
  ⟨0xF00F, 0x8006, fun op => .shr (fieldX op) (fieldY op)⟩,
  ⟨0xF00F, 0x8007, fun op => .subn (fieldX op) (fieldY op)⟩,
  ⟨0xF00F, 0x800E, fun op => .shl (fieldX op) (fieldY op)⟩,
  ⟨0xF00F, 0x9000, fun op => .sneReg (fieldX op) (fieldY op)⟩]

/-- Rows 21 to 35 of Table 30-2. -/
def rowsHigh : List Row := [
  ⟨0xF000, 0xA000, fun op => .ldI (fieldNNN op)⟩,
  ⟨0xF000, 0xB000, fun op => .jpV0 (fieldNNN op)⟩,
  ⟨0xF000, 0xC000, fun op => .rnd (fieldX op) (fieldNN op)⟩,
  ⟨0xF000, 0xD000, fun op => .drw (fieldX op) (fieldY op) (fieldN op)⟩,
  ⟨0xF0FF, 0xE09E, fun op => .skp (fieldX op)⟩,
  ⟨0xF0FF, 0xE0A1, fun op => .sknp (fieldX op)⟩,
  ⟨0xF0FF, 0xF007, fun op => .ldVxDt (fieldX op)⟩,
  ⟨0xF0FF, 0xF00A, fun op => .ldVxK (fieldX op)⟩,
  ⟨0xF0FF, 0xF015, fun op => .ldDtVx (fieldX op)⟩,
  ⟨0xF0FF, 0xF018, fun op => .ldStVx (fieldX op)⟩,
  ⟨0xF0FF, 0xF01E, fun op => .addI (fieldX op)⟩,
  ⟨0xF0FF, 0xF029, fun op => .ldF (fieldX op)⟩,
  ⟨0xF0FF, 0xF033, fun op => .ldB (fieldX op)⟩,
  ⟨0xF0FF, 0xF055, fun op => .stRegs (fieldX op)⟩,
  ⟨0xF0FF, 0xF065, fun op => .ldRegs (fieldX op)⟩]

/-- Table 30-2, in its order. -/
def rows : List Row := rowsLow ++ rowsAlu ++ rowsHigh

/-- Decoding (R74): the first row whose condition holds; `UNDEF` where none does (R77; exact matching is log entry 14).
No word is refused (R78). -/
def decode (op : Word) : Instr :=
  match rows.find? (fun r => r.selects op) with
  | some r => r.build op
  | none => .undef op

/-! ### Bytes (R55, R70) -/

/-- The big-endian word of two bytes, the one at the lower address first (R54, R55). -/
def wordOfBytes (hi lo : Byte) : Word := BitVec.ofNat 16 (hi.toNat * 256 + lo.toNat)

/-- The byte of a word stored at the lower address. -/
def highByte (w : Word) : Byte := BitVec.ofNat 8 (w.toNat / 256)

/-- The byte of a word stored at the higher address. -/
def lowByte (w : Word) : Byte := BitVec.ofNat 8 w.toNat

/-- Why a byte sequence gives no instruction. Only `decodeBytes` answers with it. -/
inductive DecodeError where
  /-- Fewer than the two bytes every instruction has (R70). -/
  | truncated
  deriving DecidableEq, Repr

/-- Decoding of any bytes: one instruction and the bytes after it, or a rejection by name. -/
def decodeBytes : List Byte → Except DecodeError (Instr × List Byte)
  | hi :: lo :: rest => .ok (decode (wordOfBytes hi lo), rest)
  | _ => .error .truncated

/-- What the decoder reads from the bits `w` of an opcode-table row of `nbits` bits; the bits above `nbits` are 0. The
word is laid out as the hardware stores it, high byte at the lower address. -/
def decodeTableWord (nbits w : Nat) : Option Instr :=
  let op : Word := BitVec.ofNat 16 (w % 2 ^ nbits)
  match decodeBytes [highByte op, lowByte op] with
  | .ok (i, _) => some i
  | .error _ => none

/-! ### The encoder (R72, R73, R75) -/

/-- Format `NNN` of Table 30-1: a family nibble and 12 bits. -/
def encNNN (family : Nat) (nnn : BitVec 12) : Word := BitVec.ofNat 16 (family * 4096 + nnn.toNat)

/-- Format `XNN`: a family nibble, `X` and a byte. Format `X` is this one with a fixed low byte. -/
def encXNN (family : Nat) (x : Reg) (nn : Byte) : Word :=
  BitVec.ofNat 16 (family * 4096 + x.val * 256 + nn.toNat)

/-- Format `XYN`: a family nibble, `X`, `Y` and a nibble. Format `XY` is this one with a fixed last nibble. -/
def encXYN (family : Nat) (x y : Reg) (n : Fin 16) : Word :=
  BitVec.ofNat 16 (family * 4096 + x.val * 256 + y.val * 16 + n.val)

/-- The word of an instruction, from the encoding column of Table 30-2. -/
def encode : Instr → Word
  | .cls => 0x00E0
  | .ret => 0x00EE
  | .sys nnn => encNNN 0x0 nnn
  | .jp nnn => encNNN 0x1 nnn
  | .call nnn => encNNN 0x2 nnn
  | .seImm x nn => encXNN 0x3 x nn
  | .sneImm x nn => encXNN 0x4 x nn
  | .seReg x y => encXYN 0x5 x y 0x0
  | .ldImm x nn => encXNN 0x6 x nn
  | .addImm x nn => encXNN 0x7 x nn
  | .ldReg x y => encXYN 0x8 x y 0x0
  | .or x y => encXYN 0x8 x y 0x1
  | .and x y => encXYN 0x8 x y 0x2
  | .xor x y => encXYN 0x8 x y 0x3
  | .addReg x y => encXYN 0x8 x y 0x4
  | .sub x y => encXYN 0x8 x y 0x5
  | .shr x y => encXYN 0x8 x y 0x6
  | .subn x y => encXYN 0x8 x y 0x7
  | .shl x y => encXYN 0x8 x y 0xE
  | .sneReg x y => encXYN 0x9 x y 0x0
  | .ldI nnn => encNNN 0xA nnn
  | .jpV0 nnn => encNNN 0xB nnn
  | .rnd x nn => encXNN 0xC x nn
  | .drw x y n => encXYN 0xD x y n
  | .skp x => encXNN 0xE x 0x9E
  | .sknp x => encXNN 0xE x 0xA1
  | .ldVxDt x => encXNN 0xF x 0x07
  | .ldVxK x => encXNN 0xF x 0x0A
  | .ldDtVx x => encXNN 0xF x 0x15
  | .ldStVx x => encXNN 0xF x 0x18
  | .addI x => encXNN 0xF x 0x1E
  | .ldF x => encXNN 0xF x 0x29
  | .ldB x => encXNN 0xF x 0x33
  | .stRegs x => encXNN 0xF x 0x55
  | .ldRegs x => encXNN 0xF x 0x65
  | .undef op => op

/-- The two bytes of an instruction, in the order memory holds them (R55, R70). -/
def encodeBytes (i : Instr) : List Byte := [highByte (encode i), lowByte (encode i)]

end Sys2Proof
end

