-- ==== Sys2Proof/Config.lean ====
section
/-! DEFINITION. What an implementation fixes: the parameters of Table 00-1 (R4), and the free values, which have no body. -/

namespace Sys2Proof

/-! ### Fixed parameters -/

/-- `MEM_SIZE` (R4, R50). -/
abbrev memSize : Nat := 4096

/-- `PROG_BASE` (R4, R38). -/
abbrev progBase : Nat := 0x200

/-- `PROG_CAPACITY = MEM_SIZE - PROG_BASE` (R4). -/
abbrev progCapacity : Nat := 3584

/-- `FONT_BASE` (R4). -/
abbrev fontBase : Nat := 0x000

/-- `FONT_GLYPH_HEIGHT` (R4). -/
abbrev glyphHeight : Nat := 5

/-- `STACK_SIZE`, at its reference value (R4, log entry 16). -/
abbrev stackSize : Nat := 16

/-- `FB_WIDTH`, at its reference value (R4, log entry 16). -/
abbrev fbWidth : Nat := 64

/-- `FB_HEIGHT`, at its reference value (R4, log entry 16). -/
abbrev fbHeight : Nat := 32

/-! ### Storage -/

/-- The 4096 bytes of `MEM` (R50), as the list of the bytes that differ from the boot contents, addresses rising. -/
abbrev Memory := List Host.Cell

/-- The grid of Boolean cells `FB[x, y]` (R32, R150): 32 rows of 64 cells, the row `y` first. -/
abbrev FrameBuffer := Vector (Vector Bool 64) 32

/-- A frame buffer with every cell unset (R37, R153). -/
def FrameBuffer.blank : FrameBuffer := Vector.replicate 32 (Vector.replicate 64 false)

/-! ### Parameters an implementation may vary -/

/-- `SHIFT_MODE` (R4, R128, R130; log entry 18): which register the two shifts take as operand. -/
inductive ShiftMode where
  /-- `VX_INPLACE`, the default: `V[X]` is shifted in place and `Y` is ignored. -/
  | vxInplace
  /-- `VY_SOURCE`: `V[Y]` is shifted into `V[X]`. -/
  | vySource
  deriving DecidableEq, Repr

/-- The parameters of Table 00-1 that may vary and that a rule depends on. `resetMem` holds both `FONT_DATA` and
`RESET_MEM_FILL`: it lists the bytes whose value after `Reset` is not the default one. -/
structure Config where
  shiftMode  : ShiftMode
  resetV     : Vector Byte 16
  resetI     : Word
  resetStack : Vector Word 16
  resetFb    : FrameBuffer
  resetMem   : Memory
  deriving DecidableEq, Repr

/-- The value column of Table 00-1 (R4, R37; decisions D5 to D10 and D15; log entries 1 to 6). -/
def Config.standard : Config where
  shiftMode  := .vxInplace
  resetV     := Vector.replicate 16 0
  resetI     := 0
  resetStack := Vector.replicate 16 0
  resetFb    := FrameBuffer.blank
  resetMem   := []

/-! ### Free values (no body: nothing can be proved about which value each one is) -/

/-- The answer to the `n`-th query of the run, where it is a call of `RandomByte()` (R131, R185; log entry 8). -/
opaque Config.randomByte : Nat → Byte

/-- The answer to the `n`-th query of the run, where it asks `KeyDown(k)`: for `k` in 0 to 15 the level of the key at
that moment, for `k > 15` an arbitrary Boolean (R162, R184; log entry 9). -/
opaque Config.keyDown : Nat → Byte → Bool

end Sys2Proof
end

