-- ==== Sys2Proof/Machine/State.lean ====
section
/-! DEFINITION. The state of one machine instance (R20), the reasons a step can stop, and the state right after `Reset`. -/

namespace Sys2Proof.Machine

/-- The four fatal conditions of Table 60-1 (R170). A step that stops with one is SAFE: the spec ends the run there
(R171 to R176) and the fault carries no state. -/
inductive Fault where
  /-- Code 1 (R171). Raised by the fetch when `PC > 0xFFE`, and by `DXYN`, `FX33`, `FX55`, `FX65` when a byte they
  access lies above 0xFFF. Safe. -/
  | addressOutOfRange
  /-- Code 2 (R172). Raised by `2NNN` when the stack is full. Safe. -/
  | stackOverflow
  /-- Code 3 (R173). Raised by `00EE` when the stack is empty. Safe. -/
  | stackUnderflow
  /-- Code 4 (R174, R198). Reported by the host operation `LoadProgram`, never raised by a step: a refused load
  leaves the machine as it was. Safe. -/
  | programTooLarge
  deriving DecidableEq, Repr

/-- Why a step gives no meaning. -/
inductive Refusal where
  /-- An instruction the model has no meaning for yet, by its mnemonic. No arm of `exec` answers with it. Safe. -/
  | notModelled (mnemonic : String)
  deriving DecidableEq, Repr

/-- The execution mode (R30). -/
inductive Mode where
  /-- Normal fetch, decode, execute. -/
  | running
  /-- Entered by `FX0A`, left by `KeyEvent` or `Reset`; it holds the target register (R163, R164, R190). -/
  | awaitingKey (r : Reg)
  /-- A fatal condition has ended the instance; only `Reset` leaves it (R176, R177). -/
  | faulted (cause : Fault)
  deriving DecidableEq, Repr

/-- What the last operation told the host besides the state (R35, R97, R156, R198; log entries 11 and 32). No instruction
reads it. -/
inductive Report where
  /-- The operation completed, or had no effect because the machine is faulted (log entry 32). -/
  | completed
  /-- The operation was a `Cycle` that executed `00E0` or `DXYN` (R156). -/
  | frameUpdated
  /-- The operation was refused with this cause and changed nothing (R198). -/
  | failed (cause : Fault)
  deriving DecidableEq, Repr

/-- The five operations of Table 40-1, each invoked by the host (R90). -/
inductive HostOp where
  /-- R195. -/
  | reset
  /-- R197, R198. -/
  | loadProgram (bytes : List Byte)
  /-- R91 to R97. -/
  | cycle
  /-- R182. -/
  | tickTimers
  /-- R164; the key number is 0 to 15 by its type. -/
  | keyEvent (k : Key)
  deriving DecidableEq, Repr

/-- The host's side, the second agent (R11, R33): which operations it invokes and what it answers. It is the model's
own, not the spec's (log entries 7 to 9).
* `script`: the operations still to come, the next one first; where it is empty the host invokes `Cycle`.
* `randomIn`, `keyIn`: the answers to the next queries, where the state fixes them.
* `draws`: how many queries have been answered, which numbers the free values. -/
structure Env where
  script   : List HostOp
  randomIn : List Byte
  keyIn    : List Bool
  draws    : Nat
  deriving DecidableEq, Repr

/-- The state (R20): the spec's record, then the model's own `report`, `cfg` and `env`.
* `v`: the registers `V0` to `VF` (R21, R22).  * `i`: `I` (R23).  * `pc`: `PC` (R24).
* `depth`: the number of live stack entries, `SP + 1` (R26; log entry 21).  * `stack`: `STACK` (R27).
* `dt`, `st`: the two timers (R28, R29).  * `mode`: `MODE` (R30).
* `mem`: `MEM` (R31).  * `fb`: `FB` (R32).
* `report`: what the last operation told the host (R35; log entry 11).  * `cfg`: the configuration, which no
  step changes (R4; log entry 17). -/
structure State where
  v      : Vector Byte 16
  i      : Word
  pc     : Word
  depth  : Fin 17
  stack  : Vector Word 16
  dt     : Byte
  st     : Byte
  mode   : Mode
  mem    : Memory
  fb     : FrameBuffer
  report : Report
  cfg    : Config
  env    : Env
  deriving DecidableEq, Repr

/-- The three outcomes of a step or of a meaning. -/
abbrev Result := Host.Outcome State Fault Refusal

/-- The machine right after `Reset` with the parameters' default values (R37, R195). `v`, `i`, `stack`, `fb` and the
memory outside the font are values the model names (log entries 1 to 5); the host has nothing scripted. -/
def State.reset : State where
  v      := Vector.replicate 16 0
  i      := 0
  pc     := 0x200
  depth  := 0
  stack  := Vector.replicate 16 0
  dt     := 0
  st     := 0
  mode   := .running
  mem    := []
  fb     := FrameBuffer.blank
  report := .completed
  cfg    := Config.standard
  env    := { script := [], randomIn := [], keyIn := [], draws := 0 }

end Sys2Proof.Machine
end

