-- ==== Sys2Proof/Machine/Ops.lean ====
section
/-! DEFINITION. The named operations over registers, memory, the stack, the program counter and the host's answers, and
the one operation that raises a fault. Every meaning is written over these. -/

namespace Sys2Proof.Machine

/-! ### Memory as data (R50 to R53) -/

/-- Glyphs 0 to 7 of Table 20-2 (R60). -/
def fontLow : List Byte :=
  [0xF0, 0x90, 0x90, 0x90, 0xF0] ++ [0x20, 0x60, 0x20, 0x20, 0x70] ++ [0xF0, 0x10, 0xF0, 0x80, 0xF0] ++
  [0xF0, 0x10, 0xF0, 0x10, 0xF0] ++ [0x90, 0x90, 0xF0, 0x10, 0x10] ++ [0xF0, 0x80, 0xF0, 0x10, 0xF0] ++
  [0xF0, 0x80, 0xF0, 0x90, 0xF0] ++ [0xF0, 0x10, 0x20, 0x40, 0x40]

/-- Glyphs 8 to F of Table 20-2 (R60). -/
def fontHigh : List Byte :=
  [0xF0, 0x90, 0xF0, 0x90, 0xF0] ++ [0xF0, 0x90, 0xF0, 0x10, 0xF0] ++ [0xF0, 0x90, 0xF0, 0x90, 0x90] ++
  [0xE0, 0x90, 0xE0, 0x90, 0xE0] ++ [0xF0, 0x80, 0x80, 0x80, 0xF0] ++ [0xE0, 0x90, 0x90, 0x90, 0xE0] ++
  [0xF0, 0x80, 0xF0, 0x80, 0xF0] ++ [0xF0, 0x80, 0xF0, 0x80, 0x80]

/-- `FONT_DATA`, 80 bytes at `FONT_BASE = 0` (R60). -/
def fontData : List Byte := fontLow ++ fontHigh

/-- What an address reads as when memory does not list it: the font byte, and the fill 0x00 above the font (R37, R60,
R195; log entries 5 and 6). -/
def bootByte (a : Nat) : Byte := fontData.getD a 0

/-- The byte at an address. -/
def Memory.lookup : Memory → Nat → Byte
  | [], a => bootByte a
  | (k, b) :: rest, a => if k = a then b else Memory.lookup rest a

/-- Lists a byte at its place, in place of the one listed there. -/
def Memory.list (a : Nat) (b : Byte) : Memory → Memory
  | [] => [(a, b)]
  | (k, c) :: rest =>
    if a < k then (a, b) :: (k, c) :: rest
    else if k = a then (a, b) :: rest
    else (k, c) :: Memory.list a b rest

/-- Takes an address off the list. -/
def Memory.unlist (a : Nat) (m : Memory) : Memory := m.filter (fun c => c.1 != a)

/-- Stores a byte and keeps the canonical form: a byte equal to the boot contents is not listed. -/
def Memory.store (a : Nat) (b : Byte) (m : Memory) : Memory :=
  if b = bootByte a then Memory.unlist a m else Memory.list a b m

/-- Bytes placed at ascending addresses, from inside the address space. -/
def placeBytes : Nat → List Byte → Memory → Memory
  | _, [], m => m
  | a, b :: bs, m => placeBytes (a + 1) bs (Memory.store a b m)

/-- The canonical form: addresses strictly rising, all inside the address space, no entry equal to the boot contents. -/
abbrev Memory.wf (m : Memory) : Prop :=
  m.Pairwise (fun p q => p.1 < q.1) ∧ ∀ c ∈ m, c.1 < memSize ∧ c.2 ≠ bootByte c.1

/-! ### Faults (R176): the one place where a fatal condition is raised. There is no handler and no return (R177). -/

/-- `raise Fault(cause)`: the operation ends at once and the fault carries no state (R176; log entry 15). -/
def raise (cause : Fault) : Result := .fault cause

/-- The numeric code of a fault (R170, Table 60-1). -/
def Fault.code : Fault → Nat
  | .addressOutOfRange => 1
  | .stackOverflow => 2
  | .stackUnderflow => 3
  | .programTooLarge => 4

/-- What the machine is for the host after a fault (R176): `MODE = Faulted(cause)`. The other fields are those of the
state the operation started from, which the spec leaves unspecified (R179); no statement rests on them. -/
def State.enterFaulted (cause : Fault) (s : State) : State := { s with mode := .faulted cause }

/-- Continues an operation with the value of an access, or raises the fault the access gave. -/
def andThen {α : Type} (r : Except Fault α) (k : α → Result) : Result :=
  match r with
  | .ok a => k a
  | .error cause => raise cause

/-! ### Registers (R21, R22): no register is hard-wired -/

/-- `V[r]`. -/
def State.getV (s : State) (r : Reg) : Byte := s.v[r.val]

/-- `V[r] <- b`. -/
def State.setV (r : Reg) (b : Byte) (s : State) : State := { s with v := s.v.set r.val b }

/-- `I <- w` (R23). -/
def State.setI (w : Word) (s : State) : State := { s with i := w }

/-- `PC <- w` (R24). -/
def State.setPc (w : Word) (s : State) : State := { s with pc := w }

/-- `if c then PC <- PC + 2` (R104 to R107, R160, R161). -/
def State.skipIf (c : Bool) (s : State) : State := s.setPc (if c then s.pc + 2 else s.pc)

/-- `DT <- b` (R28). -/
def State.setDt (b : Byte) (s : State) : State := { s with dt := b }

/-- `ST <- b` (R29). -/
def State.setSt (b : Byte) (s : State) : State := { s with st := b }

/-- `MODE <- m` (R30). -/
def State.setMode (m : Mode) (s : State) : State := { s with mode := m }

/-- `FB <- f` (R32). -/
def State.setFb (f : FrameBuffer) (s : State) : State := { s with fb := f }

/-- Sets what the operation tells the host (R35, R97). -/
def State.setReport (r : Report) (s : State) : State := { s with report := r }

/-! ### Memory accesses of the machine (R52, R53, R54) -/

/-- The byte at address `a`, without the bounds check. -/
def State.byteAt (s : State) (a : Nat) : Byte := Memory.lookup s.mem a

/-- `MemRead(a, 1)` (R52). -/
def memRead (a : Nat) (s : State) : Except Fault Byte :=
  if a < memSize then .ok (s.byteAt a) else .error .addressOutOfRange

/-- `MemWrite(a, 1, b)` (R53). -/
def memWrite (a : Nat) (b : Byte) (s : State) : Except Fault State :=
  if a < memSize then .ok { s with mem := Memory.store a b s.mem } else .error .addressOutOfRange

/-- `MemRead(a, 2)`, big-endian; only the fetch uses it (R54). -/
def memReadWord (a : Nat) (s : State) : Except Fault Word :=
  match memRead a s, memRead (a + 1) s with
  | .ok hi, .ok lo => .ok (wordOfBytes hi lo)
  | _, _ => .error .addressOutOfRange

/-- Stores bytes at ascending addresses, one access after the other (R57, R143). -/
def storeBytes : Nat → List Byte → State → Result
  | _, [], s => .next s
  | a, b :: bs, s => andThen (memWrite a b s) (storeBytes (a + 1) bs)

/-- Reads `n` bytes at ascending addresses, one access after the other (R57, R154). -/
def readBytes : Nat → Nat → State → Except Fault (List Byte)
  | _, 0, _ => .ok []
  | a, n + 1, s =>
    match memRead a s with
    | .error cause => .error cause
    | .ok b =>
      match readBytes (a + 1) n s with
      | .error cause => .error cause
      | .ok bs => .ok (b :: bs)

/-- `for i in the list: MemWrite(base + i, 1, V[i])` (R144). -/
def storeRegs (base : Nat) : List Reg → State → Result
  | [], s => .next s
  | r :: rs, s => andThen (memWrite (base + r.val) (s.getV r) s) (storeRegs base rs)

/-- `for i in the list: V[i] <- MemRead(base + i, 1)` (R145). -/
def loadRegs (base : Nat) : List Reg → State → Result
  | [], s => .next s
  | r :: rs, s => andThen (memRead (base + r.val) s) (fun b => loadRegs base rs (s.setV r b))

/-! ### The return stack (R26, R27) -/

/-- `SP` as the spec counts it: -1 when the stack is empty (R26; log entry 21). -/
def State.sp (s : State) : Int := (s.depth.val : Int) - 1

/-- Push: `StackOverflow` on a full stack, else `SP <- SP + 1; STACK[SP] <- w` (R103, R172). -/
def push (w : Word) (s : State) (k : State → Result) : Result :=
  if h : s.depth.val < 16 then
    k { s with stack := s.stack.set s.depth.val w h, depth := ⟨s.depth.val + 1, by omega⟩ }
  else raise .stackOverflow

/-- Pop: `StackUnderflow` on an empty stack, else the entry `STACK[SP]`, then `SP <- SP - 1`; the entry is not
cleared (R27, R101, R173). -/
def pop (s : State) (k : Word → State → Result) : Result :=
  if h : s.depth.val = 0 then raise .stackUnderflow
  else
    k (s.stack[s.depth.val - 1]'(by have := s.depth.isLt; omega))
      { s with depth := ⟨s.depth.val - 1, by have := s.depth.isLt; omega⟩ }

/-! ### The host's answers (R96, R184, R185) -/

/-- One query has been answered: the free values move on. -/
def Env.advance (e : Env) : Env := { e with draws := e.draws + 1 }

/-- The answer of `RandomByte()`: what the state scripts, else a free value (R185). -/
def State.randomByte (s : State) : Byte :=
  match s.env.randomIn with
  | b :: _ => b
  | [] => Config.randomByte s.env.draws

/-- The state after a call of `RandomByte()`. -/
def State.afterRandom (s : State) : State :=
  { s with env := Env.advance { s.env with randomIn := s.env.randomIn.tail } }

/-- The answer of `KeyDown(k)`: what the state scripts, else a free value (R162, R184). -/
def State.keyDown (s : State) (k : Byte) : Bool :=
  match s.env.keyIn with
  | b :: _ => b
  | [] => Config.keyDown s.env.draws k

/-- The state after a call of `KeyDown`. -/
def State.afterKey (s : State) : State :=
  { s with env := Env.advance { s.env with keyIn := s.env.keyIn.tail } }

/-! ### Fetch (R91, R92) -/

/-- The instruction in the two bytes at `PC`, and the state with `PC` advanced past it: the whole opcode is read
before anything else happens. -/
def fetch (s : State) : Except Fault (Instr × State) :=
  match memReadWord s.pc.toNat s with
  | .ok op => .ok (decode op, s.setPc (s.pc + 2))
  | .error cause => .error cause

end Sys2Proof.Machine
end

