-- ==== Sys2Proof/Machine/Flags.lean ====
section
/-! DEFINITION. Every value the spec writes to `VF` as a flag (Table 10-1, R10), and the one order in which a flag and a
result are written (R9). -/

namespace Sys2Proof.Machine

/-- A condition as a byte: 0x01 or 0x00 (R10). -/
def b2i (c : Bool) : Byte := if c then 1 else 0

/-- The carry of `8XY4`: the true sum exceeds 255 (R126, R132). -/
def carryFlag (a b : Byte) : Byte := b2i (decide (255 < a.toNat + b.toNat))

/-- The no-borrow flag of `8XY5`: equal operands count as no borrow (R127, conflict C1; log entry 13). -/
def noBorrowFlag (a b : Byte) : Byte := b2i (decide (b.toNat ≤ a.toNat))

/-- The flag of `8XY7`: strictly greater, so equal operands give 0 (R129, conflict C2; log entry 13). -/
def greaterFlag (a b : Byte) : Byte := b2i (decide (b.toNat < a.toNat))

/-- The flag of `8XY6`: bit 0 of the operand (R128). -/
def lowBitFlag (a : Byte) : Byte := a &&& 1

/-- The flag of `8XYE`: bit 7 of the operand, as 0 or 1 (R130). -/
def highBitFlag (a : Byte) : Byte := b2i (a &&& 0x80 != 0)

/-- `V[0xF] <- flag(V[a], V[b]); V[x] <- result(V[a], V[b])`, left to right: the second statement reads the registers
the first one left (R9; DEDUCED by the spec, decision D2; log entry 12). -/
def flagThenResult (flag result : Byte → Byte → Byte) (x a b : Reg) (s : State) : State :=
  let s1 := s.setV regF (flag (s.getV a) (s.getV b))
  s1.setV x (result (s1.getV a) (s1.getV b))

end Sys2Proof.Machine
end

