-- ==== Sys2Proof/Machine/Operands.lean ====
section
/-! DEFINITION. Every operand form: immediates, the effective address, the operand of the shifts, the digits of a byte and
the register range of the multi-register accesses (R73, R146). -/

namespace Sys2Proof.Machine

/-- A 12-bit address, zero-extended to 16 bits: never shifted, scaled or forced even (R73). -/
def addr12 (nnn : BitVec 12) : Word := nnn.setWidth 16

/-- A byte, zero-extended to 16 bits. -/
def zext16 (b : Byte) : Word := b.setWidth 16

/-- The effective address `I + k`, taken as an unbounded integer (R61, R146; log entry 28). -/
def State.ea (s : State) (k : Nat) : Nat := s.i.toNat + k

/-- The register whose value a shift takes: `X` or `Y`, as `SHIFT_MODE` says (R128, R130; log entry 18). -/
def shiftSource (mode : ShiftMode) (x y : Reg) : Reg :=
  match mode with
  | .vxInplace => x
  | .vySource => y

/-- The address of the glyph of a byte: the whole byte counts, not its low nibble (R142; log entry 22). -/
def glyphAddr (b : Byte) : Word := BitVec.ofNat 16 (fontBase + b.toNat * glyphHeight)

/-- The decimal digits of a byte: hundreds, tens, ones (R143). -/
def bcdDigits (b : Byte) : List Byte :=
  [BitVec.ofNat 8 (b.toNat / 100), BitVec.ofNat 8 (b.toNat / 10 % 10), BitVec.ofNat 8 (b.toNat % 10)]

/-- The registers `V0` to `VX`, in that order (R144, R145). -/
def regsUpTo (x : Reg) : List Reg := (List.finRange 16).take (x.val + 1)

end Sys2Proof.Machine
end

