-- ==== Sys2Proof/Machine/Alu.lean ====
section
/-! DEFINITION. Register load, arithmetic, logic, shift and random (spec/42_alu.md). -/

namespace Sys2Proof.Machine

/-- `LD Vx, nn` (R120). -/
def execLdImm (x : Reg) (nn : Byte) (s : State) : Result := .next (s.setV x nn)

/-- `ADD Vx, nn`: wraps, no flag (R121). -/
def execAddImm (x : Reg) (nn : Byte) (s : State) : Result := .next (s.setV x (s.getV x + nn))

/-- `LD Vx, Vy` (R122). -/
def execLdReg (x y : Reg) (s : State) : Result := .next (s.setV x (s.getV y))

/-- `OR Vx, Vy`: no flag (R123, R133). -/
def execOr (x y : Reg) (s : State) : Result := .next (s.setV x (s.getV x ||| s.getV y))

/-- `AND Vx, Vy`: no flag (R124, R133). -/
def execAnd (x y : Reg) (s : State) : Result := .next (s.setV x (s.getV x &&& s.getV y))

/-- `XOR Vx, Vy`: no flag (R125, R133). -/
def execXor (x y : Reg) (s : State) : Result := .next (s.setV x (s.getV x ^^^ s.getV y))

/-- `ADD Vx, Vy`: carry, then sum (R126). -/
def execAddReg (x y : Reg) (s : State) : Result :=
  .next (flagThenResult carryFlag (fun a b => a + b) x x y s)

/-- `SUB Vx, Vy`: no-borrow, then `V[X] - V[Y]` (R127). -/
def execSub (x y : Reg) (s : State) : Result :=
  .next (flagThenResult noBorrowFlag (fun a b => a - b) x x y s)

/-- `SHR Vx {, Vy}`: bit 0, then the operand shifted right by one (R128). -/
def execShr (x y : Reg) (s : State) : Result :=
  let src := shiftSource s.cfg.shiftMode x y
  .next (flagThenResult (fun a _ => lowBitFlag a) (fun a _ => a >>> 1) x src src s)

/-- `SUBN Vx, Vy`: strictly greater, then `V[Y] - V[X]` (R129). -/
def execSubn (x y : Reg) (s : State) : Result :=
  .next (flagThenResult greaterFlag (fun a b => a - b) x y x s)

/-- `SHL Vx {, Vy}`: bit 7, then the operand shifted left by one (R130). -/
def execShl (x y : Reg) (s : State) : Result :=
  let src := shiftSource s.cfg.shiftMode x y
  .next (flagThenResult (fun a _ => highBitFlag a) (fun a _ => a <<< 1) x src src s)

/-- `RND Vx, nn`: one random byte under the mask (R131). -/
def execRnd (x : Reg) (nn : Byte) (s : State) : Result := .next (s.afterRandom.setV x (s.randomByte &&& nn))

end Sys2Proof.Machine
end

