-- ==== Sys2Proof/Machine/ControlFlow.lean ====
section
/-! DEFINITION. Control flow, stack, register skips and the no-ops (spec/41_control_flow.md). `PC` already points past the
instruction (R92). -/

namespace Sys2Proof.Machine

/-- `SYS nnn`: the legacy host call, a no-op (R100). -/
def execSys (_nnn : BitVec 12) (s : State) : Result := .next s

/-- `UNDEF`: an unrecognised word, a no-op (R109). -/
def execUndef (_op : Word) (s : State) : Result := .next s

/-- `RET`: `PC <- pop()` (R101). -/
def execRet (s : State) : Result := pop s (fun target t => .next (t.setPc target))

/-- `JP nnn`: `PC <- NNN` (R102). -/
def execJp (nnn : BitVec 12) (s : State) : Result := .next (s.setPc (addr12 nnn))

/-- `CALL nnn`: push the advanced `PC`, then `PC <- NNN` (R103). -/
def execCall (nnn : BitVec 12) (s : State) : Result := push s.pc s (fun t => .next (t.setPc (addr12 nnn)))

/-- `SE Vx, nn`: skip if `V[X] = NN` (R104). -/
def execSeImm (x : Reg) (nn : Byte) (s : State) : Result := .next (s.skipIf (s.getV x == nn))

/-- `SNE Vx, nn`: skip if `V[X] != NN` (R105). -/
def execSneImm (x : Reg) (nn : Byte) (s : State) : Result := .next (s.skipIf (s.getV x != nn))

/-- `SE Vx, Vy`: skip if `V[X] = V[Y]` (R106). -/
def execSeReg (x y : Reg) (s : State) : Result := .next (s.skipIf (s.getV x == s.getV y))

/-- `SNE Vx, Vy`: skip if `V[X] != V[Y]` (R107). -/
def execSneReg (x y : Reg) (s : State) : Result := .next (s.skipIf (s.getV x != s.getV y))

/-- `JP V0, nnn`: `PC <- NNN + V[0]`, with no reduction to 12 bits (R108). -/
def execJpV0 (nnn : BitVec 12) (s : State) : Result := .next (s.setPc (addr12 nnn + zext16 (s.getV 0)))

end Sys2Proof.Machine
end

