-- ==== Sys2Proof/Machine/Raster.lean ====
section
/-! DEFINITION. The frame buffer's operations and the sprite rasterizer (R150 to R152). -/

namespace Sys2Proof.Machine

/-- A cell's coordinates. -/
abbrev Pixel := Fin 64 × Fin 32

/-- `FB[x, y]` (R150). -/
def FrameBuffer.get (f : FrameBuffer) (p : Pixel) : Bool := f[p.2.val][p.1.val]

/-- `FB[x, y] <- b` (R150). -/
def FrameBuffer.put (f : FrameBuffer) (p : Pixel) (b : Bool) : FrameBuffer :=
  f.set p.2.val ((f[p.2.val]).set p.1.val b)

/-- The cell of integer coordinates, reduced by the width and the height (R151, R152). -/
def wrapPixel (x y : Nat) : Pixel := (⟨x % 64, Nat.mod_lt _ (by decide)⟩, ⟨y % 32, Nat.mod_lt _ (by decide)⟩)

/-- The cells of one sprite row whose bit is 1, most significant bit first (R151). -/
def rowPixels (ox y : Nat) (row : Byte) : List Pixel :=
  ((List.range 8).filter (fun b => row.getLsbD (7 - b))).map (fun b => wrapPixel (ox + b) y)

/-- The cells a sprite flips, in the order it flips them: row after row from `y` on (R151). -/
def spritePixels (ox : Nat) : Nat → List Byte → List Pixel
  | _, [] => []
  | y, row :: rows => rowPixels ox y row ++ spritePixels ox (y + 1) rows

/-- Flips one cell; a cell that was set before the flip is a collision (R151). -/
def flipPixel (acc : FrameBuffer × Bool) (p : Pixel) : FrameBuffer × Bool :=
  (FrameBuffer.put acc.1 p (!FrameBuffer.get acc.1 p), acc.2 || FrameBuffer.get acc.1 p)

/-- `DrawSprite(ox, oy, rows)`: the frame buffer after it and whether it collided (R151). -/
def drawSprite (ox oy : Byte) (rows : List Byte) (f : FrameBuffer) : FrameBuffer × Bool :=
  (spritePixels ox.toNat oy.toNat rows).foldl flipPixel (f, false)

end Sys2Proof.Machine
end

