-- ==== Sys2Proof/Machine/Display.lean ====
section
/-! DEFINITION. The two display instructions (spec/44_display.md); both report `FrameUpdated` (R156). -/

namespace Sys2Proof.Machine

/-- `CLS`: every cell unset (R153). -/
def execCls (s : State) : Result := .next ((s.setFb FrameBuffer.blank).setReport .frameUpdated)

/-- `DRW Vx, Vy, n`: the origin registers and the `N` bytes at `I` are read, the sprite is drawn, `VF` is the collision
(R154; `N = 0` reads nothing and clears `VF`, log entry 24). -/
def execDrw (x y : Reg) (n : Fin 16) (s : State) : Result :=
  andThen (readBytes (s.ea 0) n.val s) fun rows =>
    let drawn := drawSprite (s.getV x) (s.getV y) rows s.fb
    .next (((s.setFb drawn.1).setV regF (b2i drawn.2)).setReport .frameUpdated)

end Sys2Proof.Machine
end

