-- ==== Sys2Proof/Machine/IndexMemory.lean ====
section
/-! DEFINITION. The address register and the data accesses (spec/43_index_memory.md). -/

namespace Sys2Proof.Machine

/-- `LD I, nnn` (R140). -/
def execLdI (nnn : BitVec 12) (s : State) : Result := .next (s.setI (addr12 nnn))

/-- `ADD I, Vx`: modulo 65536, no flag (R141). -/
def execAddI (x : Reg) (s : State) : Result := .next (s.setI (s.i + zext16 (s.getV x)))

/-- `LD F, Vx`: `I` points at the glyph (R142). -/
def execLdF (x : Reg) (s : State) : Result := .next (s.setI (glyphAddr (s.getV x)))

/-- `LD B, Vx`: the three digits at `I`, `I + 1`, `I + 2` (R143). -/
def execLdB (x : Reg) (s : State) : Result := storeBytes (s.ea 0) (bcdDigits (s.getV x)) s

/-- `LD [I], Vx`: `V0` to `VX` to ascending addresses from `I` (R144). -/
def execStRegs (x : Reg) (s : State) : Result := storeRegs (s.ea 0) (regsUpTo x) s

/-- `LD Vx, [I]`: `V0` to `VX` from ascending addresses from `I` (R145). -/
def execLdRegs (x : Reg) (s : State) : Result := loadRegs (s.ea 0) (regsUpTo x) s

end Sys2Proof.Machine
end

