-- ==== Sys2Proof/Machine/KeysTimers.lean ====
section
/-! DEFINITION. The key skips, the key wait and the timer instructions (spec/45_keys_timers.md). -/

namespace Sys2Proof.Machine

/-- `SKP Vx`: one query `KeyDown(V[X])`; skip if the key is down (R160, R162). -/
def execSkp (x : Reg) (s : State) : Result := .next (s.afterKey.skipIf (s.keyDown (s.getV x)))

/-- `SKNP Vx`: one query `KeyDown(V[X])`; skip if the key is not down (R161, R162). -/
def execSknp (x : Reg) (s : State) : Result := .next (s.afterKey.skipIf (!s.keyDown (s.getV x)))

/-- `LD Vx, DT` (R165). -/
def execLdVxDt (x : Reg) (s : State) : Result := .next (s.setV x s.dt)

/-- `LD Vx, K`: `MODE <- AwaitingKey(X)`; `V[X]` is written by the `KeyEvent` that ends the wait (R163, R164). -/
def execLdVxK (x : Reg) (s : State) : Result := .next (s.setMode (.awaitingKey x))

/-- `LD DT, Vx` (R166). -/
def execLdDtVx (x : Reg) (s : State) : Result := .next (s.setDt (s.getV x))

/-- `LD ST, Vx` (R167). -/
def execLdStVx (x : Reg) (s : State) : Result := .next (s.setSt (s.getV x))

end Sys2Proof.Machine
end

