-- ==== Sys2Proof/Machine/HostOps.lean ====
section
/-! DEFINITION. The host's operations other than `Cycle` (R90): `Reset`, `LoadProgram`, `TickTimers`, `KeyEvent`, and what
the host reads. On a faulted machine all but `Reset` have no effect (R177; log entry 25). -/

namespace Sys2Proof.Machine

/-- `Reset` (R195): every element at its reset value, in any mode; the configuration and the host's side stay. -/
def hostReset (s : State) : State :=
  { s with
    v := s.cfg.resetV, i := s.cfg.resetI, pc := BitVec.ofNat 16 progBase, depth := 0, stack := s.cfg.resetStack,
    dt := 0, st := 0, mode := .running, mem := s.cfg.resetMem, fb := s.cfg.resetFb, report := .completed }

/-- `LoadProgram(bytes)` (R197): the bytes from 0x200 on, or a refusal that changes nothing and does not fault the
machine (R198). In which order the host loads and runs is not checked (log entry 19).
DESIGN CHOICE: on a faulted machine, where the spec says only that a load has no effect (R177), the report stays
`completed`, for an oversize image too (log entry 32). -/
def hostLoadProgram (bytes : List Byte) (s : State) : State :=
  match s.mode with
  | .faulted _ => s
  | .running | .awaitingKey _ =>
    if bytes.length ≤ progCapacity then { s with mem := placeBytes progBase bytes s.mem }
    else s.setReport (.failed .programTooLarge)

/-- One timer's tick: 0 stays 0 (R182; log entry 23). -/
def tickDown (t : Byte) : Byte := if t = 0 then 0 else t - 1

/-- `TickTimers` (R182): both timers, running or waiting. On a faulted machine it has no effect and the report stays
`completed` (DESIGN CHOICE, log entry 32). -/
def hostTickTimers (s : State) : State :=
  match s.mode with
  | .faulted _ => s
  | .running | .awaitingKey _ => (s.setDt (tickDown s.dt)).setSt (tickDown s.st)

/-- `KeyEvent(k)` (R164): ends a key wait, and has no effect in any other mode (log entry 20).
The report stays `completed` in every mode, faulted included (DESIGN CHOICE, log entry 32). -/
def hostKeyEvent (k : Key) (s : State) : State :=
  match s.mode with
  | .awaitingKey r => (s.setV r (BitVec.ofNat 8 k.val)).setMode .running
  | .running | .faulted _ => s

/-- What the host sees of the sound output: the tone is on exactly while `ST != 0` (R186). -/
def State.toneOn (s : State) : Bool := s.st != 0

/-- What the host sees of the display: one cell of the frame buffer snapshot (R35, R187). -/
def State.pixelOn (s : State) (x : Fin 64) (y : Fin 32) : Bool := s.fb[y.val][x.val]

end Sys2Proof.Machine
end

