-- ==== Sys2Proof/Machine/Cycle.lean ====
section
/-! DEFINITION. `Cycle` (R91 to R97) and the host's choice among the five operations (R90). -/

namespace Sys2Proof.Machine

/-- `Cycle`: fetch, advance `PC`, decode, execute (R97). While a key is awaited it changes nothing (R94); on a faulted
machine it gives the same fault again (R95) (log entry 25). -/
def cycle (s : State) : Result :=
  match s.mode with
  | .running => andThen (fetch s) (fun p => exec p.1 p.2)
  | .awaitingKey _ => .next s
  | .faulted cause => raise cause

/-- One operation of the host (R90). -/
def perform (op : HostOp) (s : State) : Result :=
  match op with
  | .reset => .next (hostReset s)
  | .loadProgram bytes => .next (hostLoadProgram bytes s)
  | .cycle => cycle s
  | .tickTimers => .next (hostTickTimers s)
  | .keyEvent k => .next (hostKeyEvent k s)

/-- The operation the host invokes next: the first one scripted, and `Cycle` where none is (log entry 7). -/
def State.nextOp (s : State) : HostOp := s.env.script.headD .cycle

/-- The state as an operation begins: the operation is taken off the script, and the last report is gone (R156). -/
def State.begin (s : State) : State :=
  { s with report := .completed, env := { s.env with script := s.env.script.tail } }

/-- The address the next fetch reads: `PC` where a word fits there, else the program's base. -/
def State.fetchAddr (s : State) : Nat := if s.pc.toNat + 1 < memSize then s.pc.toNat else progBase

/-- A word in the two bytes from `a` on, high byte first (R55). -/
def placeWord (a : Nat) (w : Word) (m : Memory) : Memory := placeBytes a [highByte w, lowByte w] m

end Sys2Proof.Machine
end

