-- ==== Sys2Proof/Machine/Step.lean ====
section
/-! DEFINITION. The step: the host's next operation, performed atomically (R12, R90). -/

namespace Sys2Proof.Machine

/-- One operation of the host on the machine; with nothing scripted it is a `Cycle`. -/
def step (s : State) : Host.Outcome State Fault Refusal := perform s.nextOp s.begin

/-- `s` with the instruction of the bits `w` (`nbits` of them, zeros above) where the next step fetches, and with that
step a `Cycle` of a running machine (log entry 10). -/
def State.withFetchWord (s : State) (nbits w : Nat) : State :=
  { s with
    pc := BitVec.ofNat 16 s.fetchAddr
    mode := .running
    mem := placeWord s.fetchAddr (BitVec.ofNat 16 (w % 2 ^ nbits)) s.mem
    env := { s.env with script := [] } }

end Sys2Proof.Machine
end

