-- ==== Sys2Proof/Safety.lean ====
section
/-! DEFINITION. The terms statements are made in: the parts of the state and what "only these change" means, the parts each
instruction may write and the fault it raises (both tables written from the spec, not from the meanings), which cells a
sprite covers, the invariant of the machine, and the idle loop. -/

namespace Sys2Proof.Machine

/-! ### Parts of the state and frames -/

/-- The parts of the state a frame speaks of: every field of `State`, registers, stack entries and bytes one by one. -/
inductive Part where
  | v (r : Reg)
  | i
  | pc
  | sp
  | entry (j : Fin 16)
  | dt
  | st
  | mode
  | mem (a : Nat)
  | fb
  | report
  | cfg
  | script
  | answers
  deriving DecidableEq, Repr

/-- `t` holds in this part what `s` holds. A byte of memory is compared by reading it. -/
def keeps (p : Part) (s t : State) : Prop :=
  match p with
  | .v r => t.getV r = s.getV r
  | .i => t.i = s.i
  | .pc => t.pc = s.pc
  | .sp => t.depth = s.depth
  | .entry j => t.stack[j.val] = s.stack[j.val]
  | .dt => t.dt = s.dt
  | .st => t.st = s.st
  | .mode => t.mode = s.mode
  | .mem a => t.byteAt a = s.byteAt a
  | .fb => t.fb = s.fb
  | .report => t.report = s.report
  | .cfg => t.cfg = s.cfg
  | .script => t.env.script = s.env.script
  | .answers => t.env.randomIn = s.env.randomIn ∧ t.env.keyIn = s.env.keyIn ∧ t.env.draws = s.env.draws

/-- Every part but the listed ones is unchanged: every register, flag, stack entry, byte of memory and so on. -/
abbrev OnlyChanges (ps : List Part) (s t : State) : Prop := ∀ p, p ∉ ps → keeps p s t

/-- The addresses `I` to `I + n - 1` as parts. -/
def State.bytesAtI (s : State) (n : Nat) : List Part := (List.range n).map (fun k => .mem (s.ea k))

/-- The registers `V0` to `VX` as parts. -/
def regParts (x : Reg) : List Part := (List.finRange 16).filterMap (fun r => if r ≤ x then some (.v r) else none)

/-- The stack entry a push writes, where there is one. -/
def State.nextEntry (s : State) : List Part :=
  if h : s.depth.val < 16 then [.entry ⟨s.depth.val, h⟩] else []

/-- The parts each instruction may write, from the Effect column (R75, R22, Table 10-1, Table 20-3, Table 41-1). The
`PC` advance of the fetch is not the instruction's (R92). -/
def writes (i : Instr) (s : State) : List Part :=
  match i with
  | .cls => [.fb, .report]
  | .ret => [.pc, .sp]
  | .sys _ => []
  | .jp _ => [.pc]
  | .call _ => [.pc, .sp] ++ s.nextEntry
  | .seImm _ _ => [.pc]
  | .sneImm _ _ => [.pc]
  | .seReg _ _ => [.pc]
  | .ldImm x _ => [.v x]
  | .addImm x _ => [.v x]
  | .ldReg x _ => [.v x]
  | .or x _ => [.v x]
  | .and x _ => [.v x]
  | .xor x _ => [.v x]
  | .addReg x _ => [.v x, .v 15]
  | .sub x _ => [.v x, .v 15]
  | .shr x _ => [.v x, .v 15]
  | .subn x _ => [.v x, .v 15]
  | .shl x _ => [.v x, .v 15]
  | .sneReg _ _ => [.pc]
  | .ldI _ => [.i]
  | .jpV0 _ => [.pc]
  | .rnd x _ => [.v x, .answers]
  | .drw _ _ _ => [.fb, .v 15, .report]
  | .skp _ => [.pc, .answers]
  | .sknp _ => [.pc, .answers]
  | .ldVxDt x => [.v x]
  | .ldVxK _ => [.mode]
  | .ldDtVx _ => [.dt]
  | .ldStVx _ => [.st]
  | .addI _ => [.i]
  | .ldF _ => [.i]
  | .ldB _ => s.bytesAtI 3
  | .stRegs x => s.bytesAtI (x.val + 1)
  | .ldRegs x => regParts x
  | .undef _ => []

/-! ### Faults -/

/-- The fault an instruction raises, and when (Table 60-1, Table 20-3, R171 to R173, R178). -/
def faultOf (i : Instr) (s : State) : Option Fault :=
  match i with
  | .ret => if s.depth.val = 0 then some .stackUnderflow else none
  | .call _ => if s.depth.val = 16 then some .stackOverflow else none
  | .drw _ _ n => if 1 ≤ n.val ∧ 0xFFF < s.i.toNat + n.val - 1 then some .addressOutOfRange else none
  | .ldB _ => if 0xFFF < s.i.toNat + 2 then some .addressOutOfRange else none
  | .stRegs x => if 0xFFF < s.i.toNat + x.val then some .addressOutOfRange else none
  | .ldRegs x => if 0xFFF < s.i.toNat + x.val then some .addressOutOfRange else none
  | .cls | .sys _ | .jp _ | .seImm _ _ | .sneImm _ _ | .seReg _ _ => none
  | .ldImm _ _ | .addImm _ _ | .ldReg _ _ | .or _ _ | .and _ _ | .xor _ _ => none
  | .addReg _ _ | .sub _ _ | .shr _ _ | .subn _ _ | .shl _ _ | .sneReg _ _ => none
  | .ldI _ | .jpV0 _ | .rnd _ _ | .skp _ | .sknp _ => none
  | .ldVxDt _ | .ldVxK _ | .ldDtVx _ | .ldStVx _ | .addI _ | .ldF _ | .undef _ => none

/-! ### Fetching -/

/-- Every word with these fixed bits decodes to this instruction (a row of Table 30-2). -/
abbrev Encodes (mask value : Word) (build : Word → Instr) : Prop := ∀ op : Word, op &&& mask = value → decode op = build op

/-- The next operation is a `Cycle` that reads the opcode `op` at `PC` and `PC + 1`, high byte first (R54, R91). -/
def State.Fetches (s : State) (op : Word) : Prop :=
  s.nextOp = .cycle ∧ s.mode = .running ∧ s.pc.toNat ≤ 0xFFE ∧
    op.toNat = (s.byteAt s.pc.toNat).toNat * 256 + (s.byteAt (s.pc.toNat + 1)).toNat

/-! ### Sprites -/

/-- The sprite of `DXYN` has a 1 bit on this cell: bit `7 - b` of the byte at `I + r`, at column `V[X] + b` and row
`V[Y] + r`, each reduced by the grid's size (R151). -/
def SpriteCovers (s : State) (x y : Reg) (n : Fin 16) (p : Pixel) : Prop :=
  ∃ r b : Nat, r < n.val ∧ b < 8 ∧ (s.byteAt (s.ea r)).getLsbD (7 - b) = true ∧
    p.1.val = ((s.getV x).toNat + b) % 64 ∧ p.2.val = ((s.getV y).toNat + r) % 32

/-! ### The invariant (R25, R50) -/

/-- Memory is canonical (and so are the boot contents a `Reset` gives it), `PC` is at most 0x10FE, and every live return
address is at most 0x1000. -/
def State.Inv (s : State) : Prop :=
  Memory.wf s.mem ∧ Memory.wf s.cfg.resetMem ∧ s.pc.toNat ≤ 0x10FE ∧
    ∀ j : Fin 16, j.val < s.depth.val → (s.stack[j.val]).toNat ≤ 0x1000

/-! ### The end of a run (R206) -/

/-- The idle loop: a running machine whose word at `PC` is a jump to `PC`. -/
def State.AtSelfJump (s : State) : Prop :=
  s.mode = .running ∧ s.pc.toNat ≤ 0xFFE ∧
    (s.byteAt s.pc.toNat).toNat * 256 + (s.byteAt (s.pc.toNat + 1)).toNat = 0x1000 + s.pc.toNat

end Sys2Proof.Machine
end

