-- ==== Sys2Proof/Certificates/Slice0/Obligations.lean ====
section
/-! DEFINITION. The statements about this machine, from the numbered rules of spec/. `OnlyChanges` and the other terms are
those of Sys2Proof/Safety.lean. `exec` works on a state whose `PC` already points past the instruction (R92), so `s.pc`
there is `a + 2` of the rules. -/

open Sys2Proof Sys2Proof.Machine

/-! ### Encoding (spec/30_encoding.md) -/

/-- Words written out from the encodings of the spec decode to the instructions they stand for (R74, R75). That
0x5121 is `UNDEF` and no second spelling of `SE` is decision D16 (log entry 14). -/
def Obligations.SpecWordsDecode : Prop :=
  decode 0x00E0 = .cls ∧ decode 0x00EE = .ret ∧ decode 0x00E1 = .sys 0x0E1 ∧ decode 0x1ABC = .jp 0xABC ∧
  decode 0x3A42 = .seImm 0xA 0x42 ∧ decode 0x8124 = .addReg 1 2 ∧ decode 0xA2F0 = .ldI 0x2F0 ∧
  decode 0xD012 = .drw 0 1 2 ∧ decode 0xE49E = .skp 4 ∧ decode 0xF20A = .ldVxK 2 ∧ decode 0xF265 = .ldRegs 2 ∧
  decode 0x5121 = .undef 0x5121

/-- Decoding the word of a well-formed instruction gives the instruction back, every operand at every value. -/
def Obligations.DecodeOfEncode : Prop :=
  ∀ i : Instr, i.wellFormed = true → decode (encode i) = i

/-- Every word decodes to a well-formed instruction whose word it is: no bit is lost and no word is refused (R74). -/
def Obligations.EncodeOfDecode : Prop :=
  ∀ op : Word, (decode op).wellFormed = true ∧ encode (decode op) = op

/-- The words of `0NNN` are those of family 0 but 0x00E0 and 0x00EE (R76), and the unrecognised words are exactly the
five groups R77 lists (exact matching is decision D16, log entry 14). -/
def Obligations.LegacyAndUnrecognisedWords : Prop :=
  ∀ op : Word,
    ((∃ nnn, decode op = .sys nnn) ↔ op.toNat < 0x1000 ∧ op.toNat ≠ 0x00E0 ∧ op.toNat ≠ 0x00EE) ∧
    ((∃ w, decode op = .undef w) ↔
      (op.toNat / 4096 = 0x5 ∧ op.toNat % 16 ≠ 0) ∨
      (op.toNat / 4096 = 0x8 ∧ op.toNat % 16 ∈ [0x8, 0x9, 0xA, 0xB, 0xC, 0xD, 0xF]) ∨
      (op.toNat / 4096 = 0x9 ∧ op.toNat % 16 ≠ 0) ∨
      (op.toNat / 4096 = 0xE ∧ op.toNat % 256 ∉ [0x9E, 0xA1]) ∨
      (op.toNat / 4096 = 0xF ∧ op.toNat % 256 ∉ [0x07, 0x0A, 0x15, 0x18, 0x1E, 0x29, 0x33, 0x55, 0x65]))

/-- The five fields are the opcode's own bits (R6, R71): `X = op[11:8]`, `Y = op[7:4]`, `N = op[3:0]`, `NN = op[7:0]`,
`NNN = op[11:0]`. -/
def Obligations.FieldsAreTheBits : Prop :=
  ∀ (op : Word) (k : Nat),
    (k < 4 → (fieldX op).val.testBit k = op.getLsbD (8 + k)) ∧
    (k < 4 → (fieldY op).val.testBit k = op.getLsbD (4 + k)) ∧
    (k < 4 → (fieldN op).val.testBit k = op.getLsbD k) ∧
    (k < 8 → (fieldNN op).getLsbD k = op.getLsbD k) ∧
    (k < 12 → (fieldNNN op).getLsbD k = op.getLsbD k)

/-- Order matters only among the three rows of family 0 (R74): leaving out `0NNN`, or leaving out `00E0` and `00EE`, no
word is selected by two rows. -/
def Obligations.RowsAreExclusive : Prop :=
  (rows.eraseIdx 2).Pairwise (fun p q => ∀ op : Word, ¬ (p.selects op = true ∧ q.selects op = true)) ∧
  (rows.drop 2).Pairwise (fun p q => ∀ op : Word, ¬ (p.selects op = true ∧ q.selects op = true))

/-! ### The cycle (spec/40_cycle.md) -/

/-- A step whose operation is a `Cycle` of a running machine runs the instruction the two bytes at `PC` decode to, on
the state with `PC` advanced by 2 (R91 to R93). The operation taken off the script and the last report gone are the
model's own (log entries 7 and 11). -/
def Obligations.StepRunsTheDecoded : Prop :=
  ∀ (s : State) (op : Word) (i : Instr), s.Fetches op → decode op = i → i.wellFormed = true →
    step s = exec i
      { s with
        pc := s.pc + 2, report := .completed, env := { s.env with script := s.env.script.tail } }

/-- The fetch faults when `PC > 0xFFE`, and the step with it; up to 0xFFE the fetch gives the instruction of the two bytes
at `PC` with `PC` advanced, and the step executes it (R91, R92). The state a step begins with, its operation off the script
and its report gone, is the model's own (log entries 7 and 11). -/
def Obligations.FetchAboveTheTopFaults : Prop :=
  (∀ s : State, s.nextOp = .cycle → s.mode = .running → 0xFFE < s.pc.toNat →
    fetch s = .error .addressOutOfRange ∧ step s = .fault .addressOutOfRange) ∧
  (∀ s : State, s.nextOp = .cycle → s.mode = .running → s.pc.toNat ≤ 0xFFE →
    ∃ op, s.Fetches op ∧ fetch s = .ok (decode op, s.setPc (s.pc + 2)) ∧
      step s = exec (decode op) (s.begin.setPc (s.pc + 2)))

/-- A `Cycle` while a key is awaited changes nothing, and a `Cycle` after a fault gives the same fault again
(R94, R95;
decisions D18 and D19, log entry 25). -/
def Obligations.IdleCycles : Prop :=
  (∀ (s : State) (r : Reg), s.nextOp = .cycle → s.mode = .awaitingKey r →
    ∃ t, step s = .next t ∧ OnlyChanges [.report, .script] s t) ∧
  (∀ (s : State) (c : Fault), s.nextOp = .cycle → s.mode = .faulted c → step s = .fault c)

/-- After a `Cycle` whose instruction does not write `PC`, `PC` has advanced by exactly 2 (R92). -/
def Obligations.PcAdvancesByTwo : Prop :=
  ∀ (s t : State) (op : Word), s.Fetches op → Part.pc ∉ writes (decode op) s → step s = .next t →
    t.pc.toNat = s.pc.toNat + 2

/-! ### Control flow (spec/41_control_flow.md) -/

/-- `SYS` and `UNDEF` are no-ops: a `Cycle` on one of their words advances `PC` by 2 and changes nothing else
(R100, R109; which words are unrecognised is decision D16, log entry 14). -/
def Obligations.NoOpsChangeNothing : Prop :=
  (∀ (s : State) (nnn : BitVec 12), ∃ t, exec (.sys nnn) s = .next t ∧ OnlyChanges [] s t) ∧
  (∀ (s : State) (w : Word), ∃ t, exec (.undef w) s = .next t ∧ OnlyChanges [] s t) ∧
  (∀ (s : State) (op : Word), s.Fetches op →
    (op &&& 0xF000 = 0x0000 ∧ op ≠ 0x00E0 ∧ op ≠ 0x00EE) ∨ unrecognised op = true →
    ∃ t, step s = .next t ∧ t.pc.toNat = s.pc.toNat + 2 ∧ OnlyChanges [.pc, .report, .script] s t)

/-- `JP nnn` sets `PC` to `NNN`, `JP V0, nnn` to `NNN + V[0]`, neither reduced nor checked (R102, R108). -/
def Obligations.JumpsSetThePc : Prop :=
  Encodes 0xF000 0x1000 (fun op => .jp (fieldNNN op)) ∧
  Encodes 0xF000 0xB000 (fun op => .jpV0 (fieldNNN op)) ∧
  (∀ (s : State) (nnn : BitVec 12), ∃ t, exec (.jp nnn) s = .next t ∧ t.pc.toNat = nnn.toNat ∧ OnlyChanges [.pc] s t) ∧
  (∀ (s : State) (nnn : BitVec 12), ∃ t, exec (.jpV0 nnn) s = .next t ∧
    t.pc.toNat = nnn.toNat + (s.getV 0).toNat ∧ OnlyChanges [.pc] s t)

/-- The four skips that compare registers and immediates (R104 to R107). -/
def Obligations.RegisterSkips : Prop :=
  Encodes 0xF000 0x3000 (fun op => .seImm (fieldX op) (fieldNN op)) ∧
  Encodes 0xF000 0x4000 (fun op => .sneImm (fieldX op) (fieldNN op)) ∧
  Encodes 0xF00F 0x5000 (fun op => .seReg (fieldX op) (fieldY op)) ∧
  Encodes 0xF00F 0x9000 (fun op => .sneReg (fieldX op) (fieldY op)) ∧
  (∀ (s : State) (x : Reg) (nn : Byte), ∃ t, exec (.seImm x nn) s = .next t ∧
    t.pc = (if s.getV x = nn then s.pc + 2 else s.pc) ∧ OnlyChanges [.pc] s t) ∧
  (∀ (s : State) (x : Reg) (nn : Byte), ∃ t, exec (.sneImm x nn) s = .next t ∧
    t.pc = (if s.getV x = nn then s.pc else s.pc + 2) ∧ OnlyChanges [.pc] s t) ∧
  (∀ (s : State) (x y : Reg), ∃ t, exec (.seReg x y) s = .next t ∧
    t.pc = (if s.getV x = s.getV y then s.pc + 2 else s.pc) ∧ OnlyChanges [.pc] s t) ∧
  (∀ (s : State) (x y : Reg), ∃ t, exec (.sneReg x y) s = .next t ∧
    t.pc = (if s.getV x = s.getV y then s.pc else s.pc + 2) ∧ OnlyChanges [.pc] s t)

/-- `CALL nnn` pushes the advanced `PC` and jumps; on a full stack it faults (R103). -/
def Obligations.CallPushes : Prop :=
  Encodes 0xF000 0x2000 (fun op => .call (fieldNNN op)) ∧
  (∀ (s : State) (nnn : BitVec 12) (h : s.depth.val < 16), ∃ t, exec (.call nnn) s = .next t ∧
    t.pc.toNat = nnn.toNat ∧ t.sp = s.sp + 1 ∧ t.stack[s.depth.val] = s.pc ∧
    OnlyChanges [.pc, .sp, .entry ⟨s.depth.val, h⟩] s t) ∧
  (∀ (s : State) (nnn : BitVec 12), s.sp = 15 → exec (.call nnn) s = .fault .stackOverflow)

/-- `RET` pops the top entry into `PC` and clears nothing; on an empty stack it faults (R101). -/
def Obligations.ReturnPops : Prop :=
  Encodes 0xFFFF 0x00EE (fun _ => .ret) ∧
  (∀ (s : State) (j : Fin 16), s.depth.val = j.val + 1 → ∃ t, exec .ret s = .next t ∧
    t.pc = s.stack[j.val] ∧ t.sp = s.sp - 1 ∧ OnlyChanges [.pc, .sp] s t) ∧
  (∀ s : State, s.sp = -1 → exec .ret s = .fault .stackUnderflow)

/-- A `RET` whose stack is the one a `CALL` left goes back to the instruction after the call, at the call's depth. -/
def Obligations.CallThenReturn : Prop :=
  ∀ (s t u : State) (nnn : BitVec 12), exec (.call nnn) s = .next t → u.depth = t.depth → u.stack = t.stack →
    ∃ w, exec .ret u = .next w ∧ w.pc = s.pc ∧ w.depth = s.depth ∧
      ∀ j : Fin 16, j.val < s.depth.val → w.stack[j.val] = s.stack[j.val]

/-! ### Loads, arithmetic, logic, shifts, random (spec/42_alu.md) -/

/-- `LD Vx, nn`, `ADD Vx, nn` (wraps, no flag) and `LD Vx, Vy` (R120 to R122). -/
def Obligations.LoadsAndImmediateAdd : Prop :=
  Encodes 0xF000 0x6000 (fun op => .ldImm (fieldX op) (fieldNN op)) ∧
  Encodes 0xF000 0x7000 (fun op => .addImm (fieldX op) (fieldNN op)) ∧
  Encodes 0xF00F 0x8000 (fun op => .ldReg (fieldX op) (fieldY op)) ∧
  (∀ (s : State) (x : Reg) (nn : Byte), ∃ t, exec (.ldImm x nn) s = .next t ∧ t.getV x = nn ∧
    OnlyChanges [.v x] s t) ∧
  (∀ (s : State) (x : Reg) (nn : Byte), ∃ t, exec (.addImm x nn) s = .next t ∧
    (t.getV x).toNat = ((s.getV x).toNat + nn.toNat) % 256 ∧ OnlyChanges [.v x] s t) ∧
  (∀ (s : State) (x y : Reg), ∃ t, exec (.ldReg x y) s = .next t ∧ t.getV x = s.getV y ∧ OnlyChanges [.v x] s t)

/-- `OR`, `AND`, `XOR` bit by bit; `VF` is not written unless it is the destination (R123 to R125). -/
def Obligations.LogicBitByBit : Prop :=
  Encodes 0xF00F 0x8001 (fun op => .or (fieldX op) (fieldY op)) ∧
  Encodes 0xF00F 0x8002 (fun op => .and (fieldX op) (fieldY op)) ∧
  Encodes 0xF00F 0x8003 (fun op => .xor (fieldX op) (fieldY op)) ∧
  (∀ (s : State) (x y : Reg), ∃ t, exec (.or x y) s = .next t ∧
    (∀ k, (t.getV x).getLsbD k = ((s.getV x).getLsbD k || (s.getV y).getLsbD k)) ∧ OnlyChanges [.v x] s t) ∧
  (∀ (s : State) (x y : Reg), ∃ t, exec (.and x y) s = .next t ∧
    (∀ k, (t.getV x).getLsbD k = ((s.getV x).getLsbD k && (s.getV y).getLsbD k)) ∧ OnlyChanges [.v x] s t) ∧
  (∀ (s : State) (x y : Reg), ∃ t, exec (.xor x y) s = .next t ∧
    (∀ k, (t.getV x).getLsbD k = ((s.getV x).getLsbD k ^^ (s.getV y).getLsbD k)) ∧ OnlyChanges [.v x] s t)

/-- `ADD Vx, Vy`: the carry into `VF`, then the sum of the registers as the flag write left them (R126). Where `X` or
`Y` is F the result rests on the spec's own reading of statement order (R9, decision D2; log entry 12). -/
def Obligations.AddWritesCarryThenSum : Prop :=
  Encodes 0xF00F 0x8004 (fun op => .addReg (fieldX op) (fieldY op)) ∧
  (∀ (s : State) (x y : Reg),
    let c : Byte := if (s.getV x).toNat + (s.getV y).toNat > 255 then 1 else 0
    let a := if x = 15 then c else s.getV x
    let b := if y = 15 then c else s.getV y
    ∃ t, exec (.addReg x y) s = .next t ∧ (t.getV x).toNat = (a.toNat + b.toNat) % 256 ∧
      (x ≠ 15 → t.getV 15 = c) ∧ OnlyChanges [.v x, .v 15] s t)

/-- `SUB Vx, Vy`: no-borrow into `VF`, 1 for equal operands (conflict C1, log entry 13), then the difference (R127). Where `X`
or `Y` is F the result rests on decision D2 (log entry 12). -/
def Obligations.SubWritesNoBorrowThenDifference : Prop :=
  Encodes 0xF00F 0x8005 (fun op => .sub (fieldX op) (fieldY op)) ∧
  (∀ (s : State) (x y : Reg),
    let c : Byte := if (s.getV x).toNat ≥ (s.getV y).toNat then 1 else 0
    let a := if x = 15 then c else s.getV x
    let b := if y = 15 then c else s.getV y
    ∃ t, exec (.sub x y) s = .next t ∧
      (t.getV x).toNat = (if a.toNat ≥ b.toNat then a.toNat - b.toNat else a.toNat + 256 - b.toNat) ∧
      (x ≠ 15 → t.getV 15 = c) ∧ OnlyChanges [.v x, .v 15] s t)

/-- `SUBN Vx, Vy`: strictly greater into `VF`, 0 for equal operands (conflict C2, log entry 13), then `V[Y] - V[X]` (R129).
Where `X` or `Y` is F the result rests on decision D2 (log entry 12). -/
def Obligations.SubnWritesStrictFlagThenDifference : Prop :=
  Encodes 0xF00F 0x8007 (fun op => .subn (fieldX op) (fieldY op)) ∧
  (∀ (s : State) (x y : Reg),
    let c : Byte := if (s.getV y).toNat > (s.getV x).toNat then 1 else 0
    let a := if x = 15 then c else s.getV x
    let b := if y = 15 then c else s.getV y
    ∃ t, exec (.subn x y) s = .next t ∧
      (t.getV x).toNat = (if b.toNat ≥ a.toNat then b.toNat - a.toNat else b.toNat + 256 - a.toNat) ∧
      (x ≠ 15 → t.getV 15 = c) ∧ OnlyChanges [.v x, .v 15] s t)

/-- `SHR`: bit 0 of the operand into `VF`, then the operand, as the flag write left it, halved; `SHIFT_MODE` chooses the
operand (R128). The order in `VY_SOURCE` mode is decision D15 (log entry 18), the operand `VF` decision D2 (log entry 12). -/
def Obligations.ShiftRightByOne : Prop :=
  Encodes 0xF00F 0x8006 (fun op => .shr (fieldX op) (fieldY op)) ∧
  (∀ (s : State) (x y : Reg),
    let z := if s.cfg.shiftMode = .vxInplace then x else y
    let c : Byte := BitVec.ofNat 8 ((s.getV z).toNat % 2)
    let a := if z = 15 then c else s.getV z
    ∃ t, exec (.shr x y) s = .next t ∧ (t.getV x).toNat = a.toNat / 2 ∧
      (x ≠ 15 → t.getV 15 = c) ∧ OnlyChanges [.v x, .v 15] s t)

/-- `SHL`: bit 7 of the operand into `VF` as 0 or 1, then the operand, as the flag write left it, doubled (R130; the same
decisions, log entries 12 and 18). -/
def Obligations.ShiftLeftByOne : Prop :=
  Encodes 0xF00F 0x800E (fun op => .shl (fieldX op) (fieldY op)) ∧
  (∀ (s : State) (x y : Reg),
    let z := if s.cfg.shiftMode = .vxInplace then x else y
    let c : Byte := BitVec.ofNat 8 ((s.getV z).toNat / 128)
    let a := if z = 15 then c else s.getV z
    ∃ t, exec (.shl x y) s = .next t ∧ (t.getV x).toNat = 2 * a.toNat % 256 ∧
      (x ≠ 15 → t.getV 15 = c) ∧ OnlyChanges [.v x, .v 15] s t)

/-- `RND Vx, nn` writes the random byte under the mask, whatever the byte is; a byte the host has scripted (log entry
8) is the one used, so every byte is possible (R131). -/
def Obligations.RandomByteUnderMask : Prop :=
  Encodes 0xF000 0xC000 (fun op => .rnd (fieldX op) (fieldNN op)) ∧
  (∀ (s : State) (x : Reg) (nn : Byte), ∃ t, exec (.rnd x nn) s = .next t ∧
    (∀ k, (t.getV x).getLsbD k = (s.randomByte.getLsbD k && nn.getLsbD k)) ∧ OnlyChanges [.v x, .answers] s t) ∧
  (∀ (s : State) (r : Byte) (rest : List Byte), s.env.randomIn = r :: rest → s.randomByte = r)

/-! ### The address register and memory (spec/43_index_memory.md) -/

/-- `LD I, nnn`, and `ADD I, Vx` modulo 65536 with no flag (R140, R141). -/
def Obligations.IndexRegisterWrites : Prop :=
  Encodes 0xF000 0xA000 (fun op => .ldI (fieldNNN op)) ∧
  Encodes 0xF0FF 0xF01E (fun op => .addI (fieldX op)) ∧
  (∀ (s : State) (nnn : BitVec 12), ∃ t, exec (.ldI nnn) s = .next t ∧ t.i.toNat = nnn.toNat ∧ OnlyChanges [.i] s t) ∧
  (∀ (s : State) (x : Reg), ∃ t, exec (.addI x) s = .next t ∧
    t.i.toNat = (s.i.toNat + (s.getV x).toNat) % 65536 ∧ OnlyChanges [.i] s t)

/-- `LD F, Vx` points `I` at `5 * V[X]`, the whole byte counting (R142; above 15 it is decision D33, log entry 22). -/
def Obligations.GlyphAddress : Prop :=
  Encodes 0xF0FF 0xF029 (fun op => .ldF (fieldX op)) ∧
  (∀ (s : State) (x : Reg), ∃ t, exec (.ldF x) s = .next t ∧
    t.i.toNat = 0x000 + (s.getV x).toNat * 5 ∧ OnlyChanges [.i] s t)

/-- `LD B, Vx` stores hundreds, tens and ones at `I`, `I + 1`, `I + 2`; it faults when `I + 2 > 0xFFF` (R143). -/
def Obligations.BcdStoresThreeDigits : Prop :=
  Encodes 0xF0FF 0xF033 (fun op => .ldB (fieldX op)) ∧
  (∀ (s : State) (x : Reg), s.ea 2 ≤ 0xFFF → ∃ t, exec (.ldB x) s = .next t ∧
    (t.byteAt (s.ea 0)).toNat = (s.getV x).toNat / 100 ∧
    (t.byteAt (s.ea 1)).toNat = (s.getV x).toNat / 10 % 10 ∧
    (t.byteAt (s.ea 2)).toNat = (s.getV x).toNat % 10 ∧
    OnlyChanges [.mem (s.ea 0), .mem (s.ea 1), .mem (s.ea 2)] s t) ∧
  (∀ (s : State) (x : Reg), 0xFFF < s.ea 2 → exec (.ldB x) s = .fault .addressOutOfRange)

/-- `LD [I], Vx` stores `V0` to `VX` at `I` to `I + X`, leaves `I` alone, and faults when `I + X > 0xFFF` (R144). -/
def Obligations.StoreRegisters : Prop :=
  Encodes 0xF0FF 0xF055 (fun op => .stRegs (fieldX op)) ∧
  (∀ (s : State) (x : Reg), s.ea x.val ≤ 0xFFF → ∃ t, exec (.stRegs x) s = .next t ∧
    (∀ r : Reg, r ≤ x → t.byteAt (s.ea r.val) = s.getV r) ∧ OnlyChanges (s.bytesAtI (x.val + 1)) s t) ∧
  (∀ (s : State) (x : Reg), 0xFFF < s.ea x.val → exec (.stRegs x) s = .fault .addressOutOfRange)

/-- `LD Vx, [I]` loads `V0` to `VX` from `I` to `I + X`, leaves `I` and memory alone, and faults when `I + X > 0xFFF`
(R145). -/
def Obligations.LoadRegisters : Prop :=
  Encodes 0xF0FF 0xF065 (fun op => .ldRegs (fieldX op)) ∧
  (∀ (s : State) (x : Reg), s.ea x.val ≤ 0xFFF → ∃ t, exec (.ldRegs x) s = .next t ∧
    (∀ r : Reg, r ≤ x → t.getV r = s.byteAt (s.ea r.val)) ∧ OnlyChanges (regParts x) s t) ∧
  (∀ (s : State) (x : Reg), 0xFFF < s.ea x.val → exec (.ldRegs x) s = .fault .addressOutOfRange)

/-- Registers stored at `I` and later loaded from the same `I`, with memory as the store left it, come back. -/
def Obligations.StoreThenLoadReturns : Prop :=
  ∀ (s t u : State) (x : Reg), exec (.stRegs x) s = .next t → u.i = t.i → u.mem = t.mem →
    ∃ w, exec (.ldRegs x) u = .next w ∧ (∀ r : Reg, r ≤ x → w.getV r = s.getV r) ∧
      ∀ r : Reg, x < r → w.getV r = u.getV r

/-- A store over the next instruction is seen by the very next fetch (R64): the word executed is the one just stored.
The state the step begins with (`t.begin`: operation off the script, report gone) is the model's own (log entries 7 and
11). -/
def Obligations.StoredWordIsExecuted : Prop :=
  ∀ (s t : State) (x : Reg), exec (.stRegs x) s = .next t → 1 ≤ x.val → s.pc = s.i → s.mode = .running →
    s.nextOp = .cycle →
    step t = exec (decode (BitVec.ofNat 16 ((s.getV 0).toNat * 256 + (s.getV 1).toNat))) (t.begin.setPc (t.pc + 2))

/-- `MemRead` and `MemWrite` (R52, R53): a read gives the byte at the address, a byte written is the byte read, nothing
else changes, and every address above 0xFFF faults. -/
def Obligations.ReadAfterWrite : Prop :=
  (∀ (s : State) (a : Nat) (b : Byte), a ≤ 0xFFF → memRead a s = .ok (s.byteAt a) ∧
    ∃ t, memWrite a b s = .ok t ∧ memRead a t = .ok b ∧ (∀ k, k ≠ a → memRead k t = memRead k s) ∧
      OnlyChanges [.mem a] s t) ∧
  (∀ (s : State) (a : Nat) (b : Byte), 0xFFF < a →
    memRead a s = .error .addressOutOfRange ∧ memWrite a b s = .error .addressOutOfRange)

/-! ### The display (spec/44_display.md) -/

/-- `CLS` unsets every cell and reports `FrameUpdated` (R153; the report is the model's field, log entry 11). -/
def Obligations.ClearUnsetsEveryCell : Prop :=
  Encodes 0xFFFF 0x00E0 (fun _ => .cls) ∧
  (∀ s : State, ∃ t, exec .cls s = .next t ∧ (∀ p, FrameBuffer.get t.fb p = false) ∧ t.report = .frameUpdated ∧
    OnlyChanges [.fb, .report] s t)

/-- `DRW Vx, Vy, n` flips exactly the cells its sprite covers, and `VF` is 1 exactly when one of them was set before,
else 0; it faults when `N >= 1` and `I + N - 1 > 0xFFF` (R151, R152, R154). The case `N = 0` is
decision D30 (log entry 24), the byte 1 or 0 in `VF` decision D3 (log entry 31), and the report of `FrameUpdated` is R156
and decision D26, in the model's field (log entry 11). -/
def Obligations.DrawFlipsTheSprite : Prop :=
  Encodes 0xF000 0xD000 (fun op => .drw (fieldX op) (fieldY op) (fieldN op)) ∧
  (∀ (s : State) (x y : Reg) (n : Fin 16), n.val = 0 ∨ s.ea (n.val - 1) ≤ 0xFFF →
    ∃ t, exec (.drw x y n) s = .next t ∧
      (∀ p, FrameBuffer.get t.fb p = true ↔ (FrameBuffer.get s.fb p = true ↔ ¬ SpriteCovers s x y n p)) ∧
      (t.getV 15 = 1 ↔ ∃ p, SpriteCovers s x y n p ∧ FrameBuffer.get s.fb p = true) ∧
      (t.getV 15 = 1 ∨ t.getV 15 = 0) ∧ t.report = .frameUpdated ∧ OnlyChanges [.fb, .v 15, .report] s t) ∧
  (∀ (s : State) (x y : Reg) (n : Fin 16), 1 ≤ n.val → 0xFFF < s.ea (n.val - 1) →
    exec (.drw x y n) s = .fault .addressOutOfRange)

/-- The two properties the source states (R155): a second draw of the same sprite at the same place restores the grid,
and collides where the first set cells; a full row drawn at the right edge of row 0 wraps to columns 0 to 6.
Collision is read as `VF` being 1 (log entry 31). -/
def Obligations.SpriteProperties : Prop :=
  (∀ (s t u : State) (x y : Reg) (n : Fin 16), exec (.drw x y n) s = .next t → u.fb = t.fb → u.i = s.i →
    u.mem = s.mem → u.getV x = s.getV x → u.getV y = s.getV y →
    ∃ w, exec (.drw x y n) u = .next w ∧ w.fb = s.fb ∧
      ((∀ p, SpriteCovers s x y n p → FrameBuffer.get s.fb p = false) →
        t.getV 15 = 0 ∧ (w.getV 15 = 1 ↔ ∃ p, SpriteCovers s x y n p))) ∧
  (∀ (s : State) (x y : Reg), s.i.toNat ≤ 0xFFF → s.byteAt s.i.toNat = 0xFF → s.getV x = 63 → s.getV y = 0 →
    (∀ p, FrameBuffer.get s.fb p = false) →
    ∃ t, exec (.drw x y 1) s = .next t ∧
      ∀ p, FrameBuffer.get t.fb p = true ↔ p.2.val = 0 ∧ (p.1.val = 63 ∨ p.1.val ≤ 6))

/-! ### Keys and timers (spec/45_keys_timers.md, spec/60_exceptions.md) -/

/-- `SKP` skips when the answer of its one query `KeyDown(V[X])` is true, `SKNP` when it is false; nothing but `PC` and
the host's answers changes; an answer the host has scripted (log entry 9) is the one used, so both are possible (R160,
R161). -/
def Obligations.KeySkips : Prop :=
  Encodes 0xF0FF 0xE09E (fun op => .skp (fieldX op)) ∧
  Encodes 0xF0FF 0xE0A1 (fun op => .sknp (fieldX op)) ∧
  (∀ (s : State) (x : Reg), ∃ t, exec (.skp x) s = .next t ∧
    t.pc = (if s.keyDown (s.getV x) = true then s.pc + 2 else s.pc) ∧ OnlyChanges [.pc, .answers] s t) ∧
  (∀ (s : State) (x : Reg), ∃ t, exec (.sknp x) s = .next t ∧
    t.pc = (if s.keyDown (s.getV x) = true then s.pc else s.pc + 2) ∧ OnlyChanges [.pc, .answers] s t) ∧
  (∀ (s : State) (k : Byte) (b : Bool) (rest : List Bool), s.env.keyIn = b :: rest → s.keyDown k = b)

/-- `LD Vx, K` enters `AwaitingKey(X)` and changes nothing else, whatever keys are held (R163; decision D21, log
entry 20). -/
def Obligations.KeyWaitSuspends : Prop :=
  Encodes 0xF0FF 0xF00A (fun op => .ldVxK (fieldX op)) ∧
  (∀ (s : State) (x : Reg), ∃ t, exec (.ldVxK x) s = .next t ∧ t.mode = .awaitingKey x ∧ OnlyChanges [.mode] s t)

/-- `KeyEvent(k)` ends a key wait: `V[r] <- k` and `MODE <- Running`; in any other mode it has no effect (R164; decisions
D19 and D20, log entries 20 and 25). -/
def Obligations.KeyEventEndsTheWait : Prop :=
  (∀ (s : State) (k : Key) (r : Reg), s.nextOp = .keyEvent k → s.mode = .awaitingKey r →
    ∃ t, step s = .next t ∧ (t.getV r).toNat = k.val ∧ t.mode = .running ∧
      OnlyChanges [.v r, .mode, .report, .script] s t) ∧
  (∀ (s : State) (k : Key), s.nextOp = .keyEvent k → (∀ r, s.mode ≠ .awaitingKey r) →
    ∃ t, step s = .next t ∧ OnlyChanges [.report, .script] s t)

/-- The three timer instructions (R165 to R167). -/
def Obligations.TimerInstructions : Prop :=
  Encodes 0xF0FF 0xF007 (fun op => .ldVxDt (fieldX op)) ∧
  Encodes 0xF0FF 0xF015 (fun op => .ldDtVx (fieldX op)) ∧
  Encodes 0xF0FF 0xF018 (fun op => .ldStVx (fieldX op)) ∧
  (∀ (s : State) (x : Reg), ∃ t, exec (.ldVxDt x) s = .next t ∧ t.getV x = s.dt ∧ OnlyChanges [.v x] s t) ∧
  (∀ (s : State) (x : Reg), ∃ t, exec (.ldDtVx x) s = .next t ∧ t.dt = s.getV x ∧ OnlyChanges [.dt] s t) ∧
  (∀ (s : State) (x : Reg), ∃ t, exec (.ldStVx x) s = .next t ∧ t.st = s.getV x ∧ OnlyChanges [.st] s t)

/-- `TickTimers` counts both timers down, 0 staying 0, running or waiting; on a faulted machine it has no effect
(R182; decisions D17 to D19, log entries 23 and 25). -/
def Obligations.TickCountsDown : Prop :=
  (∀ s : State, s.nextOp = .tickTimers → (∀ c, s.mode ≠ .faulted c) →
    ∃ t, step s = .next t ∧ t.dt.toNat = (if 0 < s.dt.toNat then s.dt.toNat - 1 else 0) ∧
      t.st.toNat = (if 0 < s.st.toNat then s.st.toNat - 1 else 0) ∧ OnlyChanges [.dt, .st, .report, .script] s t) ∧
  (∀ (s : State) (c : Fault), s.nextOp = .tickTimers → s.mode = .faulted c →
    ∃ t, step s = .next t ∧ OnlyChanges [.report, .script] s t)

/-- A `Cycle` never counts a timer down: it changes `DT` only by `FX15` and `ST` only by `FX18` (R93, R183). -/
def Obligations.CyclesNeverTick : Prop :=
  ∀ s t : State, s.nextOp = .cycle → step s = .next t →
    (t.dt ≠ s.dt → ∃ op x, s.Fetches op ∧ decode op = .ldDtVx x) ∧
    (t.st ≠ s.st → ∃ op x, s.Fetches op ∧ decode op = .ldStVx x)

/-! ### Reset and load (spec/70_reset_and_hazards.md) -/

/-- `Reset`, in any mode: every element at its reset value, the parameters' ones from the configuration; the
configuration and the host's answers stay (R37, R195; log entries 1 to 6 for the defaults). -/
def Obligations.ResetOperation : Prop :=
  ∀ s : State, s.nextOp = .reset → ∃ t, step s = .next t ∧
    t.pc.toNat = 0x200 ∧ t.sp = -1 ∧ t.dt = 0 ∧ t.st = 0 ∧ t.mode = .running ∧
    (∀ r : Reg, t.getV r = s.cfg.resetV[r.val]) ∧ t.i = s.cfg.resetI ∧ t.fb = s.cfg.resetFb ∧
    (∀ a, t.byteAt a = Memory.lookup s.cfg.resetMem a) ∧ keeps .cfg s t ∧ keeps .answers s t

/-- The machine right after reset: the values the spec gives, the 80 bytes of Table 20-2 (glyph `d` at `5 * d`), and the
values the log names for `V`, `I`, the frame buffer, the fill and the mode (log entries 1, 2, 4, 5, 6, 27). -/
def Obligations.ResetState : Prop :=
  State.reset.pc = 0x200 ∧ State.reset.sp = -1 ∧ State.reset.dt = 0 ∧ State.reset.st = 0 ∧
  State.reset.mode = .running ∧ (∀ r, State.reset.getV r = 0) ∧ State.reset.i = 0 ∧
  (∀ p, FrameBuffer.get State.reset.fb p = false) ∧
  (List.range 80).map State.reset.byteAt =
    [0xF0, 0x90, 0x90, 0x90, 0xF0,  0x20, 0x60, 0x20, 0x20, 0x70,  0xF0, 0x10, 0xF0, 0x80, 0xF0] ++
    [0xF0, 0x10, 0xF0, 0x10, 0xF0,  0x90, 0x90, 0xF0, 0x10, 0x10,  0xF0, 0x80, 0xF0, 0x10, 0xF0] ++
    [0xF0, 0x80, 0xF0, 0x90, 0xF0,  0xF0, 0x10, 0x20, 0x40, 0x40,  0xF0, 0x90, 0xF0, 0x90, 0xF0] ++
    [0xF0, 0x90, 0xF0, 0x10, 0xF0,  0xF0, 0x90, 0xF0, 0x90, 0x90,  0xE0, 0x90, 0xE0, 0x90, 0xE0] ++
    [0xF0, 0x80, 0x80, 0x80, 0xF0,  0xE0, 0x90, 0x90, 0x90, 0xE0,  0xF0, 0x80, 0xF0, 0x80, 0xF0] ++
    [0xF0, 0x80, 0xF0, 0x80, 0x80] ∧
  (∀ a, 0x050 ≤ a → State.reset.byteAt a = 0x00)

/-- `LoadProgram` places the bytes from 0x200 on and changes nothing else; an image above 3584 bytes is refused whole:
nothing but the report changes and the machine is not faulted (R197, R198; decision D25, log entry 19). -/
def Obligations.LoadProgramPlacesOrRefuses : Prop :=
  (∀ (s : State) (bytes : List Byte), s.nextOp = .loadProgram bytes → (∀ c, s.mode ≠ .faulted c) →
    bytes.length ≤ 3584 → ∃ t, step s = .next t ∧ (∀ (j : Nat) (h : j < bytes.length), t.byteAt (0x200 + j) = bytes[j]) ∧
      OnlyChanges (.report :: .script :: (List.range bytes.length).map (fun j => .mem (0x200 + j))) s t) ∧
  (∀ (s : State) (bytes : List Byte), s.nextOp = .loadProgram bytes → (∀ c, s.mode ≠ .faulted c) →
    3584 < bytes.length → ∃ t, step s = .next t ∧ t.report = .failed .programTooLarge ∧
      OnlyChanges [.report, .script] s t)

/-- On a faulted machine `TickTimers`, `KeyEvent` and `LoadProgram` have no effect, a `Cycle` gives the fault again, and
`Reset` makes it run (R177; decision D19, log entry 25). -/
def Obligations.FaultedMachineOnlyResets : Prop :=
  ∀ (s : State) (c : Fault), s.mode = .faulted c →
    (s.nextOp = .cycle → step s = .fault c) ∧
    (s.nextOp = .reset → ∃ t, step s = .next t ∧ t.mode = .running) ∧
    (s.nextOp ≠ .cycle → s.nextOp ≠ .reset → ∃ t, step s = .next t ∧ OnlyChanges [.report, .script] s t)

/-! ### The whole machine -/

/-- Every step keeps the invariant: canonical memory, `PC` at most 0x10FE, live return addresses at most 0x1000. -/
def Obligations.StepKeepsInvariant : Prop :=
  ∀ s t : State, s.Inv → step s = .next t → t.Inv

/-- The machine right after reset has the invariant. -/
def Obligations.ResetHasInvariant : Prop := State.reset.Inv

/-- The frame of every instruction: when it answers a next state, every register, flag, stack entry, byte of memory and
other part not in the table `writes` is unchanged. -/
def Obligations.EveryInstructionFrame : Prop :=
  ∀ (i : Instr) (s t : State), exec i s = .next t → OnlyChanges (writes i s) s t

/-- Every instruction either completes or raises exactly the fault of the table `faultOf`: no other, and no refusal. -/
def Obligations.InstructionFaultsExactly : Prop :=
  ∀ (i : Instr) (s : State),
    (∀ f, exec i s = .fault f ↔ faultOf i s = some f) ∧ (faultOf i s = none → ∃ t, exec i s = .next t)

/-- A step faults only as a `Cycle`: of a machine that has faulted, or in the fetch, or in the instruction fetched; and
never with `ProgramTooLarge` unless the machine was put in that mode (R91, R170, R178). That a faulted machine's `Cycle`
gives the fault again is R95, decision D19 (log entry 25). -/
def Obligations.StepFaultsExactly : Prop :=
  ∀ (s : State) (f : Fault), step s = .fault f ↔
    s.nextOp = .cycle ∧
      (s.mode = .faulted f ∨
        (s.mode = .running ∧ 0xFFE < s.pc.toNat ∧ f = .addressOutOfRange) ∨
        ∃ op, s.Fetches op ∧ faultOf (decode op) s = some f)

/-- No step is refused: every instruction has its meaning and every operation its effect. -/
def Obligations.StepNeverRefuses : Prop :=
  ∀ (s : State) (q : Refusal), step s ≠ .refused q

/-- A step reports `FrameUpdated` exactly when it was a `Cycle` that executed `00E0` or `DXYN` (R156; the report is the
model's field, log entry 11; decision D26). -/
def Obligations.FrameUpdatedExactly : Prop :=
  ∀ s t : State, step s = .next t →
    (t.report = .frameUpdated ↔
      ∃ op, s.Fetches op ∧ (decode op = .cls ∨ ∃ x y n, decode op = .drw x y n))

/-- No step changes the configuration, no step that answers a next state enters `Faulted`, and only `Reset` leaves it
(R176, R177; decisions D11 and D19, log entries 15, 17 and 25). -/
def Obligations.ConfigurationAndFaultStay : Prop :=
  ∀ s t : State, step s = .next t →
    t.cfg = s.cfg ∧ ∀ c, (t.mode = .faulted c → s.mode = .faulted c) ∧
      (s.mode = .faulted c → t.mode = .faulted c ∨ s.nextOp = .reset)

/-- The idle loop is a fixed point of `Cycle`: nothing changes but the report and the script (R102, R206). -/
def Obligations.SelfJumpIsIdle : Prop :=
  ∀ s : State, s.AtSelfJump → s.nextOp = .cycle → ∃ t, step s = .next t ∧ OnlyChanges [.report, .script] s t

/-- An instruction consults the host at most once, and only `EX9E`, `EXA1` (a key) and `CXNN` (a byte) do (R96; that an
answer is scripted or free is the model's, log entries 8 and 9). -/
def Obligations.OneQueryAtMost : Prop :=
  ∀ (i : Instr) (s t : State), exec i s = .next t →
    (keeps .answers s t ∨ t.env.draws = s.env.draws + 1) ∧
    (¬ keeps .answers s t → (∃ x, i = .skp x) ∨ (∃ x, i = .sknp x) ∨ ∃ x nn, i = .rnd x nn)
end

