-- ==== Sys2Proof/Laws/Decode.lean ====
section
/-! SUPPORT. The masks of Table 30-2 as arithmetic: a row's condition in terms of the opcode's nibbles. -/

namespace Sys2Proof.Laws

theorem and_family (n : Nat) (h : n < 65536) : n &&& 0xF000 = n / 4096 * 4096 := by
  apply Nat.eq_of_testBit_eq
  intro j
  rw [show n / 4096 * 4096 = n >>> 12 <<< 12 by rw [Nat.shiftLeft_eq, Nat.shiftRight_eq_div_pow]]
  rw [Nat.testBit_and, Nat.testBit_shiftLeft, Nat.testBit_shiftRight]
  by_cases hj : j < 16
  · interval_cases j <;> simp [Nat.testBit]
  · have h2 : n.testBit j = false :=
      Nat.testBit_lt_two_pow (Nat.lt_of_lt_of_le h (Nat.pow_le_pow_right (n := 2) (by decide) (by omega : 16 ≤ j)))
    simp [show 12 + (j - 12) = j by omega, h2]

theorem and_last (n : Nat) : n &&& 0x000F = n % 16 := Nat.and_two_pow_sub_one_eq_mod n 4

theorem and_low (n : Nat) : n &&& 0x00FF = n % 256 := Nat.and_two_pow_sub_one_eq_mod n 8

/-- Masking the family nibble (formats `NNN`, `XNN`, `XYN`). -/
theorem toNat_mask_family (w : Word) : (w &&& 0xF000).toNat = w.toNat / 4096 * 4096 :=
  and_family w.toNat w.isLt

/-- A nibble at bits 15 to 12 and a number below it do not overlap. -/
theorem or_family (a b : Nat) (h : b < 4096) : a * 4096 ||| b = a * 4096 + b := by
  have e := Nat.shiftLeft_add_eq_or_of_lt (i := 12) (b := b) h a
  rw [Nat.shiftLeft_eq] at e
  exact e.symm

/-- Masking the family and the last nibble (format `XY`). -/
theorem toNat_mask_family_last (w : Word) : (w &&& 0xF00F).toNat = w.toNat / 4096 * 4096 + w.toNat % 16 := by
  have e : w.toNat &&& 0xF00F = w.toNat / 4096 * 4096 + w.toNat % 16 := by
    rw [show (0xF00F : Nat) = 0xF000 ||| 0x000F by decide, Nat.and_or_distrib_left, and_family _ w.isLt, and_last]
    exact or_family _ _ (by omega)
  exact e

/-- Masking the family nibble and the low byte (format `X`). -/
theorem toNat_mask_family_low (w : Word) : (w &&& 0xF0FF).toNat = w.toNat / 4096 * 4096 + w.toNat % 256 := by
  have e : w.toNat &&& 0xF0FF = w.toNat / 4096 * 4096 + w.toNat % 256 := by
    rw [show (0xF0FF : Nat) = 0xF000 ||| 0x00FF by decide, Nat.and_or_distrib_left, and_family _ w.isLt, and_low]
    exact or_family _ _ (by omega)
  exact e

/-- No mask on all sixteen bits. -/
theorem toNat_mask_all (w : Word) : (w &&& 0xFFFF).toNat = w.toNat := by
  have e : w.toNat &&& 0xFFFF = w.toNat := by
    rw [show (0xFFFF : Nat) = 2 ^ 16 - 1 by decide, Nat.and_two_pow_sub_one_eq_mod, Nat.mod_eq_of_lt w.isLt]
  exact e

/-! ### A row's condition (R74), one lemma for each mask of the table -/

theorem selects_family (op v : Word) : (op &&& 0xF000 == v) = (op.toNat / 4096 * 4096 == v.toNat) := by
  rw [← toNat_mask_family, Bool.eq_iff_iff, beq_iff_eq, beq_iff_eq]
  exact BitVec.toNat_inj.symm

theorem split_family {a n v : Nat} (h : n < 4096) : a * 4096 + n = v ↔ a = v / 4096 ∧ n = v % 4096 := by omega

theorem selects_family_last (op v : Word) :
    (op &&& 0xF00F == v) = decide (op.toNat / 4096 = v.toNat / 4096 ∧ op.toNat % 16 = v.toNat % 4096) := by
  rw [Bool.eq_iff_iff, beq_iff_eq, decide_eq_true_iff, ← split_family (by omega), ← toNat_mask_family_last]
  exact BitVec.toNat_inj.symm

theorem selects_family_low (op v : Word) :
    (op &&& 0xF0FF == v) = decide (op.toNat / 4096 = v.toNat / 4096 ∧ op.toNat % 256 = v.toNat % 4096) := by
  rw [Bool.eq_iff_iff, beq_iff_eq, decide_eq_true_iff, ← split_family (by omega), ← toNat_mask_family_low]
  exact BitVec.toNat_inj.symm

theorem selects_all (op v : Word) : (op &&& 0xFFFF == v) = (op.toNat == v.toNat) := by
  rw [← toNat_mask_all, Bool.eq_iff_iff, beq_iff_eq, beq_iff_eq]
  exact BitVec.toNat_inj.symm

/-! ### Decoding family by family -/

/-- The instruction a list of rows gives a word. -/
def pick (rs : List Row) (op : Word) : Instr :=
  match rs.find? (fun r => r.selects op) with
  | some r => r.build op
  | none => .undef op

theorem pick_nil (op : Word) : pick [] op = .undef op := rfl

theorem pick_cons (r : Row) (rs : List Row) (op : Word) :
    pick (r :: rs) op = if r.selects op = true then r.build op else pick rs op := by
  simp only [pick, List.find?_cons]
  cases r.selects op <;> rfl

/-- The rows of family 8 by their last nibble. -/
def decodeAlu (op : Word) (x y : Reg) : Instr :=
  if op.toNat % 16 = 0x0 then .ldReg x y
  else if op.toNat % 16 = 0x1 then .or x y
  else if op.toNat % 16 = 0x2 then .and x y
  else if op.toNat % 16 = 0x3 then .xor x y
  else if op.toNat % 16 = 0x4 then .addReg x y
  else if op.toNat % 16 = 0x5 then .sub x y
  else if op.toNat % 16 = 0x6 then .shr x y
  else if op.toNat % 16 = 0x7 then .subn x y
  else if op.toNat % 16 = 0xE then .shl x y
  else .undef op

/-- The rows of family F by their low byte. -/
def decodeMisc (op : Word) (x : Reg) : Instr :=
  if op.toNat % 256 = 0x07 then .ldVxDt x
  else if op.toNat % 256 = 0x0A then .ldVxK x
  else if op.toNat % 256 = 0x15 then .ldDtVx x
  else if op.toNat % 256 = 0x18 then .ldStVx x
  else if op.toNat % 256 = 0x1E then .addI x
  else if op.toNat % 256 = 0x29 then .ldF x
  else if op.toNat % 256 = 0x33 then .ldB x
  else if op.toNat % 256 = 0x55 then .stRegs x
  else if op.toNat % 256 = 0x65 then .ldRegs x
  else .undef op

/-- Table 30-2 read as a choice by family nibble. -/
def decodeByFamily (op : Word) : Instr :=
  let x := fieldX op
  let y := fieldY op
  match op.toNat / 4096 with
  | 0x0 => if op.toNat = 0x00E0 then .cls else if op.toNat = 0x00EE then .ret else .sys (fieldNNN op)
  | 0x1 => .jp (fieldNNN op)
  | 0x2 => .call (fieldNNN op)
  | 0x3 => .seImm x (fieldNN op)
  | 0x4 => .sneImm x (fieldNN op)
  | 0x5 => if op.toNat % 16 = 0 then .seReg x y else .undef op
  | 0x6 => .ldImm x (fieldNN op)
  | 0x7 => .addImm x (fieldNN op)
  | 0x8 => decodeAlu op x y
  | 0x9 => if op.toNat % 16 = 0 then .sneReg x y else .undef op
  | 0xA => .ldI (fieldNNN op)
  | 0xB => .jpV0 (fieldNNN op)
  | 0xC => .rnd x (fieldNN op)
  | 0xD => .drw x y (fieldN op)
  | 0xE => if op.toNat % 256 = 0x9E then .skp x else if op.toNat % 256 = 0xA1 then .sknp x else .undef op
  | _ => decodeMisc op x

/-- The first row of Table 30-2 that selects a word is the one its family nibble and selectors name. -/
theorem decode_eq (op : Word) : decode op = decodeByFamily op := by
  have hop := op.isLt
  change pick rows op = _
  simp only [rows, rowsLow, rowsAlu, rowsHigh, List.cons_append, List.nil_append, pick_cons, pick_nil, Row.selects,
    selects_family, selects_family_last, selects_family_low, selects_all]
  have h : op.toNat / 4096 < 16 := by omega
  have e0 : op.toNat / 4096 ≠ 0 → op.toNat ≠ 0x00E0 ∧ op.toNat ≠ 0x00EE := by omega
  unfold decodeByFamily decodeAlu decodeMisc
  generalize op.toNat / 4096 = f at *
  interval_cases f <;> simp at e0 ⊢ <;> try simp [e0]

/-! ### Words of the encoder -/

theorem toNat_encNNN {f : Nat} (hf : f < 16) (nnn : BitVec 12) : (encNNN f nnn).toNat = f * 4096 + nnn.toNat := by
  have := nnn.isLt
  simp only [encNNN, BitVec.toNat_ofNat]
  omega

theorem toNat_encXNN {f : Nat} (hf : f < 16) (x : Reg) (nn : Byte) :
    (encXNN f x nn).toNat = f * 4096 + x.val * 256 + nn.toNat := by
  have := nn.isLt
  have := x.isLt
  simp only [encXNN, BitVec.toNat_ofNat]
  omega

theorem toNat_encXYN {f : Nat} (hf : f < 16) (x y : Reg) (n : Fin 16) :
    (encXYN f x y n).toNat = f * 4096 + x.val * 256 + y.val * 16 + n.val := by
  have := x.isLt
  have := y.isLt
  have := n.isLt
  simp only [encXYN, BitVec.toNat_ofNat]
  omega

/-! ### The bytes of a word (R54, R55) -/

theorem toNat_wordOfBytes (hi lo : Byte) : (wordOfBytes hi lo).toNat = hi.toNat * 256 + lo.toNat := by
  have := hi.isLt
  have := lo.isLt
  simp only [wordOfBytes, BitVec.toNat_ofNat]
  omega

@[simp] theorem wordOfBytes_split (w : Word) : wordOfBytes (highByte w) (lowByte w) = w := by
  apply BitVec.eq_of_toNat_eq
  rw [toNat_wordOfBytes]
  have := w.isLt
  simp only [highByte, lowByte, BitVec.toNat_ofNat]
  omega

end Sys2Proof.Laws
end

