-- ==== Sys2Proof/Laws/State.lean ====
section
/-! SUPPORT. What each update of the state does to each field: one lemma a field and update, all by rfl, so that no
proof unfolds a record update. -/

namespace Sys2Proof.Machine

variable (s : State)


/-! ### setV -/

@[simp] theorem State.setV_v (r : Reg) (b : Byte) : (s.setV r b).v = s.v.set r.val b := rfl
@[simp] theorem State.setV_i (r : Reg) (b : Byte) : (s.setV r b).i = s.i := rfl
@[simp] theorem State.setV_pc (r : Reg) (b : Byte) : (s.setV r b).pc = s.pc := rfl
@[simp] theorem State.setV_depth (r : Reg) (b : Byte) : (s.setV r b).depth = s.depth := rfl
@[simp] theorem State.setV_stack (r : Reg) (b : Byte) : (s.setV r b).stack = s.stack := rfl
@[simp] theorem State.setV_dt (r : Reg) (b : Byte) : (s.setV r b).dt = s.dt := rfl
@[simp] theorem State.setV_st (r : Reg) (b : Byte) : (s.setV r b).st = s.st := rfl
@[simp] theorem State.setV_mode (r : Reg) (b : Byte) : (s.setV r b).mode = s.mode := rfl
@[simp] theorem State.setV_mem (r : Reg) (b : Byte) : (s.setV r b).mem = s.mem := rfl
@[simp] theorem State.setV_fb (r : Reg) (b : Byte) : (s.setV r b).fb = s.fb := rfl
@[simp] theorem State.setV_report (r : Reg) (b : Byte) : (s.setV r b).report = s.report := rfl
@[simp] theorem State.setV_cfg (r : Reg) (b : Byte) : (s.setV r b).cfg = s.cfg := rfl
@[simp] theorem State.setV_env (r : Reg) (b : Byte) : (s.setV r b).env = s.env := rfl
@[simp] theorem State.setV_byteAt (r : Reg) (b : Byte) (k : Nat) : (s.setV r b).byteAt k = s.byteAt k := rfl
@[simp] theorem State.setV_ea (r : Reg) (b : Byte) (k : Nat) : (s.setV r b).ea k = s.ea k := rfl

/-! ### setI -/

@[simp] theorem State.setI_v (w : Word) : (s.setI w).v = s.v := rfl
@[simp] theorem State.setI_i (w : Word) : (s.setI w).i = w := rfl
@[simp] theorem State.setI_pc (w : Word) : (s.setI w).pc = s.pc := rfl
@[simp] theorem State.setI_depth (w : Word) : (s.setI w).depth = s.depth := rfl
@[simp] theorem State.setI_stack (w : Word) : (s.setI w).stack = s.stack := rfl
@[simp] theorem State.setI_dt (w : Word) : (s.setI w).dt = s.dt := rfl
@[simp] theorem State.setI_st (w : Word) : (s.setI w).st = s.st := rfl
@[simp] theorem State.setI_mode (w : Word) : (s.setI w).mode = s.mode := rfl
@[simp] theorem State.setI_mem (w : Word) : (s.setI w).mem = s.mem := rfl
@[simp] theorem State.setI_fb (w : Word) : (s.setI w).fb = s.fb := rfl
@[simp] theorem State.setI_report (w : Word) : (s.setI w).report = s.report := rfl
@[simp] theorem State.setI_cfg (w : Word) : (s.setI w).cfg = s.cfg := rfl
@[simp] theorem State.setI_env (w : Word) : (s.setI w).env = s.env := rfl
@[simp] theorem State.setI_getV (w : Word) (r : Reg) : (s.setI w).getV r = s.getV r := rfl
@[simp] theorem State.setI_byteAt (w : Word) (k : Nat) : (s.setI w).byteAt k = s.byteAt k := rfl

/-! ### setPc -/

@[simp] theorem State.setPc_v (w : Word) : (s.setPc w).v = s.v := rfl
@[simp] theorem State.setPc_i (w : Word) : (s.setPc w).i = s.i := rfl
@[simp] theorem State.setPc_pc (w : Word) : (s.setPc w).pc = w := rfl
@[simp] theorem State.setPc_depth (w : Word) : (s.setPc w).depth = s.depth := rfl
@[simp] theorem State.setPc_stack (w : Word) : (s.setPc w).stack = s.stack := rfl
@[simp] theorem State.setPc_dt (w : Word) : (s.setPc w).dt = s.dt := rfl
@[simp] theorem State.setPc_st (w : Word) : (s.setPc w).st = s.st := rfl
@[simp] theorem State.setPc_mode (w : Word) : (s.setPc w).mode = s.mode := rfl
@[simp] theorem State.setPc_mem (w : Word) : (s.setPc w).mem = s.mem := rfl
@[simp] theorem State.setPc_fb (w : Word) : (s.setPc w).fb = s.fb := rfl
@[simp] theorem State.setPc_report (w : Word) : (s.setPc w).report = s.report := rfl
@[simp] theorem State.setPc_cfg (w : Word) : (s.setPc w).cfg = s.cfg := rfl
@[simp] theorem State.setPc_env (w : Word) : (s.setPc w).env = s.env := rfl
@[simp] theorem State.setPc_getV (w : Word) (r : Reg) : (s.setPc w).getV r = s.getV r := rfl
@[simp] theorem State.setPc_byteAt (w : Word) (k : Nat) : (s.setPc w).byteAt k = s.byteAt k := rfl
@[simp] theorem State.setPc_ea (w : Word) (k : Nat) : (s.setPc w).ea k = s.ea k := rfl

/-! ### skipIf -/

@[simp] theorem State.skipIf_v (c : Bool) : (s.skipIf c).v = s.v := rfl
@[simp] theorem State.skipIf_i (c : Bool) : (s.skipIf c).i = s.i := rfl
@[simp] theorem State.skipIf_pc (c : Bool) : (s.skipIf c).pc = if c then s.pc + 2 else s.pc := rfl
@[simp] theorem State.skipIf_depth (c : Bool) : (s.skipIf c).depth = s.depth := rfl
@[simp] theorem State.skipIf_stack (c : Bool) : (s.skipIf c).stack = s.stack := rfl
@[simp] theorem State.skipIf_dt (c : Bool) : (s.skipIf c).dt = s.dt := rfl
@[simp] theorem State.skipIf_st (c : Bool) : (s.skipIf c).st = s.st := rfl
@[simp] theorem State.skipIf_mode (c : Bool) : (s.skipIf c).mode = s.mode := rfl
@[simp] theorem State.skipIf_mem (c : Bool) : (s.skipIf c).mem = s.mem := rfl
@[simp] theorem State.skipIf_fb (c : Bool) : (s.skipIf c).fb = s.fb := rfl
@[simp] theorem State.skipIf_report (c : Bool) : (s.skipIf c).report = s.report := rfl
@[simp] theorem State.skipIf_cfg (c : Bool) : (s.skipIf c).cfg = s.cfg := rfl
@[simp] theorem State.skipIf_env (c : Bool) : (s.skipIf c).env = s.env := rfl
@[simp] theorem State.skipIf_getV (c : Bool) (r : Reg) : (s.skipIf c).getV r = s.getV r := rfl
@[simp] theorem State.skipIf_byteAt (c : Bool) (k : Nat) : (s.skipIf c).byteAt k = s.byteAt k := rfl
@[simp] theorem State.skipIf_ea (c : Bool) (k : Nat) : (s.skipIf c).ea k = s.ea k := rfl

/-! ### setDt -/

@[simp] theorem State.setDt_v (b : Byte) : (s.setDt b).v = s.v := rfl
@[simp] theorem State.setDt_i (b : Byte) : (s.setDt b).i = s.i := rfl
@[simp] theorem State.setDt_pc (b : Byte) : (s.setDt b).pc = s.pc := rfl
@[simp] theorem State.setDt_depth (b : Byte) : (s.setDt b).depth = s.depth := rfl
@[simp] theorem State.setDt_stack (b : Byte) : (s.setDt b).stack = s.stack := rfl
@[simp] theorem State.setDt_dt (b : Byte) : (s.setDt b).dt = b := rfl
@[simp] theorem State.setDt_st (b : Byte) : (s.setDt b).st = s.st := rfl
@[simp] theorem State.setDt_mode (b : Byte) : (s.setDt b).mode = s.mode := rfl
@[simp] theorem State.setDt_mem (b : Byte) : (s.setDt b).mem = s.mem := rfl
@[simp] theorem State.setDt_fb (b : Byte) : (s.setDt b).fb = s.fb := rfl
@[simp] theorem State.setDt_report (b : Byte) : (s.setDt b).report = s.report := rfl
@[simp] theorem State.setDt_cfg (b : Byte) : (s.setDt b).cfg = s.cfg := rfl
@[simp] theorem State.setDt_env (b : Byte) : (s.setDt b).env = s.env := rfl
@[simp] theorem State.setDt_getV (b : Byte) (r : Reg) : (s.setDt b).getV r = s.getV r := rfl
@[simp] theorem State.setDt_byteAt (b : Byte) (k : Nat) : (s.setDt b).byteAt k = s.byteAt k := rfl
@[simp] theorem State.setDt_ea (b : Byte) (k : Nat) : (s.setDt b).ea k = s.ea k := rfl

/-! ### setSt -/

@[simp] theorem State.setSt_v (b : Byte) : (s.setSt b).v = s.v := rfl
@[simp] theorem State.setSt_i (b : Byte) : (s.setSt b).i = s.i := rfl
@[simp] theorem State.setSt_pc (b : Byte) : (s.setSt b).pc = s.pc := rfl
@[simp] theorem State.setSt_depth (b : Byte) : (s.setSt b).depth = s.depth := rfl
@[simp] theorem State.setSt_stack (b : Byte) : (s.setSt b).stack = s.stack := rfl
@[simp] theorem State.setSt_dt (b : Byte) : (s.setSt b).dt = s.dt := rfl
@[simp] theorem State.setSt_st (b : Byte) : (s.setSt b).st = b := rfl
@[simp] theorem State.setSt_mode (b : Byte) : (s.setSt b).mode = s.mode := rfl
@[simp] theorem State.setSt_mem (b : Byte) : (s.setSt b).mem = s.mem := rfl
@[simp] theorem State.setSt_fb (b : Byte) : (s.setSt b).fb = s.fb := rfl
@[simp] theorem State.setSt_report (b : Byte) : (s.setSt b).report = s.report := rfl
@[simp] theorem State.setSt_cfg (b : Byte) : (s.setSt b).cfg = s.cfg := rfl
@[simp] theorem State.setSt_env (b : Byte) : (s.setSt b).env = s.env := rfl
@[simp] theorem State.setSt_getV (b : Byte) (r : Reg) : (s.setSt b).getV r = s.getV r := rfl
@[simp] theorem State.setSt_byteAt (b : Byte) (k : Nat) : (s.setSt b).byteAt k = s.byteAt k := rfl
@[simp] theorem State.setSt_ea (b : Byte) (k : Nat) : (s.setSt b).ea k = s.ea k := rfl

/-! ### setMode -/

@[simp] theorem State.setMode_v (m : Mode) : (s.setMode m).v = s.v := rfl
@[simp] theorem State.setMode_i (m : Mode) : (s.setMode m).i = s.i := rfl
@[simp] theorem State.setMode_pc (m : Mode) : (s.setMode m).pc = s.pc := rfl
@[simp] theorem State.setMode_depth (m : Mode) : (s.setMode m).depth = s.depth := rfl
@[simp] theorem State.setMode_stack (m : Mode) : (s.setMode m).stack = s.stack := rfl
@[simp] theorem State.setMode_dt (m : Mode) : (s.setMode m).dt = s.dt := rfl
@[simp] theorem State.setMode_st (m : Mode) : (s.setMode m).st = s.st := rfl
@[simp] theorem State.setMode_mode (m : Mode) : (s.setMode m).mode = m := rfl
@[simp] theorem State.setMode_mem (m : Mode) : (s.setMode m).mem = s.mem := rfl
@[simp] theorem State.setMode_fb (m : Mode) : (s.setMode m).fb = s.fb := rfl
@[simp] theorem State.setMode_report (m : Mode) : (s.setMode m).report = s.report := rfl
@[simp] theorem State.setMode_cfg (m : Mode) : (s.setMode m).cfg = s.cfg := rfl
@[simp] theorem State.setMode_env (m : Mode) : (s.setMode m).env = s.env := rfl
@[simp] theorem State.setMode_getV (m : Mode) (r : Reg) : (s.setMode m).getV r = s.getV r := rfl
@[simp] theorem State.setMode_byteAt (m : Mode) (k : Nat) : (s.setMode m).byteAt k = s.byteAt k := rfl
@[simp] theorem State.setMode_ea (m : Mode) (k : Nat) : (s.setMode m).ea k = s.ea k := rfl

/-! ### setFb -/

@[simp] theorem State.setFb_v (f : FrameBuffer) : (s.setFb f).v = s.v := rfl
@[simp] theorem State.setFb_i (f : FrameBuffer) : (s.setFb f).i = s.i := rfl
@[simp] theorem State.setFb_pc (f : FrameBuffer) : (s.setFb f).pc = s.pc := rfl
@[simp] theorem State.setFb_depth (f : FrameBuffer) : (s.setFb f).depth = s.depth := rfl
@[simp] theorem State.setFb_stack (f : FrameBuffer) : (s.setFb f).stack = s.stack := rfl
@[simp] theorem State.setFb_dt (f : FrameBuffer) : (s.setFb f).dt = s.dt := rfl
@[simp] theorem State.setFb_st (f : FrameBuffer) : (s.setFb f).st = s.st := rfl
@[simp] theorem State.setFb_mode (f : FrameBuffer) : (s.setFb f).mode = s.mode := rfl
@[simp] theorem State.setFb_mem (f : FrameBuffer) : (s.setFb f).mem = s.mem := rfl
@[simp] theorem State.setFb_fb (f : FrameBuffer) : (s.setFb f).fb = f := rfl
@[simp] theorem State.setFb_report (f : FrameBuffer) : (s.setFb f).report = s.report := rfl
@[simp] theorem State.setFb_cfg (f : FrameBuffer) : (s.setFb f).cfg = s.cfg := rfl
@[simp] theorem State.setFb_env (f : FrameBuffer) : (s.setFb f).env = s.env := rfl
@[simp] theorem State.setFb_getV (f : FrameBuffer) (r : Reg) : (s.setFb f).getV r = s.getV r := rfl
@[simp] theorem State.setFb_byteAt (f : FrameBuffer) (k : Nat) : (s.setFb f).byteAt k = s.byteAt k := rfl
@[simp] theorem State.setFb_ea (f : FrameBuffer) (k : Nat) : (s.setFb f).ea k = s.ea k := rfl

/-! ### setReport -/

@[simp] theorem State.setReport_v (q : Report) : (s.setReport q).v = s.v := rfl
@[simp] theorem State.setReport_i (q : Report) : (s.setReport q).i = s.i := rfl
@[simp] theorem State.setReport_pc (q : Report) : (s.setReport q).pc = s.pc := rfl
@[simp] theorem State.setReport_depth (q : Report) : (s.setReport q).depth = s.depth := rfl
@[simp] theorem State.setReport_stack (q : Report) : (s.setReport q).stack = s.stack := rfl
@[simp] theorem State.setReport_dt (q : Report) : (s.setReport q).dt = s.dt := rfl
@[simp] theorem State.setReport_st (q : Report) : (s.setReport q).st = s.st := rfl
@[simp] theorem State.setReport_mode (q : Report) : (s.setReport q).mode = s.mode := rfl
@[simp] theorem State.setReport_mem (q : Report) : (s.setReport q).mem = s.mem := rfl
@[simp] theorem State.setReport_fb (q : Report) : (s.setReport q).fb = s.fb := rfl
@[simp] theorem State.setReport_report (q : Report) : (s.setReport q).report = q := rfl
@[simp] theorem State.setReport_cfg (q : Report) : (s.setReport q).cfg = s.cfg := rfl
@[simp] theorem State.setReport_env (q : Report) : (s.setReport q).env = s.env := rfl
@[simp] theorem State.setReport_getV (q : Report) (r : Reg) : (s.setReport q).getV r = s.getV r := rfl
@[simp] theorem State.setReport_byteAt (q : Report) (k : Nat) : (s.setReport q).byteAt k = s.byteAt k := rfl
@[simp] theorem State.setReport_ea (q : Report) (k : Nat) : (s.setReport q).ea k = s.ea k := rfl

/-! ### enterFaulted -/

@[simp] theorem State.enterFaulted_v (c : Fault) : (s.enterFaulted c).v = s.v := rfl
@[simp] theorem State.enterFaulted_i (c : Fault) : (s.enterFaulted c).i = s.i := rfl
@[simp] theorem State.enterFaulted_pc (c : Fault) : (s.enterFaulted c).pc = s.pc := rfl
@[simp] theorem State.enterFaulted_depth (c : Fault) : (s.enterFaulted c).depth = s.depth := rfl
@[simp] theorem State.enterFaulted_stack (c : Fault) : (s.enterFaulted c).stack = s.stack := rfl
@[simp] theorem State.enterFaulted_dt (c : Fault) : (s.enterFaulted c).dt = s.dt := rfl
@[simp] theorem State.enterFaulted_st (c : Fault) : (s.enterFaulted c).st = s.st := rfl
@[simp] theorem State.enterFaulted_mode (c : Fault) : (s.enterFaulted c).mode = .faulted c := rfl
@[simp] theorem State.enterFaulted_mem (c : Fault) : (s.enterFaulted c).mem = s.mem := rfl
@[simp] theorem State.enterFaulted_fb (c : Fault) : (s.enterFaulted c).fb = s.fb := rfl
@[simp] theorem State.enterFaulted_report (c : Fault) : (s.enterFaulted c).report = s.report := rfl
@[simp] theorem State.enterFaulted_cfg (c : Fault) : (s.enterFaulted c).cfg = s.cfg := rfl
@[simp] theorem State.enterFaulted_env (c : Fault) : (s.enterFaulted c).env = s.env := rfl
@[simp] theorem State.enterFaulted_getV (c : Fault) (r : Reg) : (s.enterFaulted c).getV r = s.getV r := rfl
@[simp] theorem State.enterFaulted_byteAt (c : Fault) (k : Nat) : (s.enterFaulted c).byteAt k = s.byteAt k := rfl
@[simp] theorem State.enterFaulted_ea (c : Fault) (k : Nat) : (s.enterFaulted c).ea k = s.ea k := rfl

/-! ### afterRandom -/

@[simp] theorem State.afterRandom_v : (s.afterRandom).v = s.v := rfl
@[simp] theorem State.afterRandom_i : (s.afterRandom).i = s.i := rfl
@[simp] theorem State.afterRandom_pc : (s.afterRandom).pc = s.pc := rfl
@[simp] theorem State.afterRandom_depth : (s.afterRandom).depth = s.depth := rfl
@[simp] theorem State.afterRandom_stack : (s.afterRandom).stack = s.stack := rfl
@[simp] theorem State.afterRandom_dt : (s.afterRandom).dt = s.dt := rfl
@[simp] theorem State.afterRandom_st : (s.afterRandom).st = s.st := rfl
@[simp] theorem State.afterRandom_mode : (s.afterRandom).mode = s.mode := rfl
@[simp] theorem State.afterRandom_mem : (s.afterRandom).mem = s.mem := rfl
@[simp] theorem State.afterRandom_fb : (s.afterRandom).fb = s.fb := rfl
@[simp] theorem State.afterRandom_report : (s.afterRandom).report = s.report := rfl
@[simp] theorem State.afterRandom_cfg : (s.afterRandom).cfg = s.cfg := rfl
@[simp] theorem State.afterRandom_env : (s.afterRandom).env = Env.advance { s.env with randomIn := s.env.randomIn.tail } := rfl
@[simp] theorem State.afterRandom_getV (r : Reg) : (s.afterRandom).getV r = s.getV r := rfl
@[simp] theorem State.afterRandom_byteAt (k : Nat) : (s.afterRandom).byteAt k = s.byteAt k := rfl
@[simp] theorem State.afterRandom_ea (k : Nat) : (s.afterRandom).ea k = s.ea k := rfl

/-! ### afterKey -/

@[simp] theorem State.afterKey_v : (s.afterKey).v = s.v := rfl
@[simp] theorem State.afterKey_i : (s.afterKey).i = s.i := rfl
@[simp] theorem State.afterKey_pc : (s.afterKey).pc = s.pc := rfl
@[simp] theorem State.afterKey_depth : (s.afterKey).depth = s.depth := rfl
@[simp] theorem State.afterKey_stack : (s.afterKey).stack = s.stack := rfl
@[simp] theorem State.afterKey_dt : (s.afterKey).dt = s.dt := rfl
@[simp] theorem State.afterKey_st : (s.afterKey).st = s.st := rfl
@[simp] theorem State.afterKey_mode : (s.afterKey).mode = s.mode := rfl
@[simp] theorem State.afterKey_mem : (s.afterKey).mem = s.mem := rfl
@[simp] theorem State.afterKey_fb : (s.afterKey).fb = s.fb := rfl
@[simp] theorem State.afterKey_report : (s.afterKey).report = s.report := rfl
@[simp] theorem State.afterKey_cfg : (s.afterKey).cfg = s.cfg := rfl
@[simp] theorem State.afterKey_env : (s.afterKey).env = Env.advance { s.env with keyIn := s.env.keyIn.tail } := rfl
@[simp] theorem State.afterKey_getV (r : Reg) : (s.afterKey).getV r = s.getV r := rfl
@[simp] theorem State.afterKey_byteAt (k : Nat) : (s.afterKey).byteAt k = s.byteAt k := rfl
@[simp] theorem State.afterKey_ea (k : Nat) : (s.afterKey).ea k = s.ea k := rfl

/-! ### begin -/

@[simp] theorem State.begin_v : (s.begin).v = s.v := rfl
@[simp] theorem State.begin_i : (s.begin).i = s.i := rfl
@[simp] theorem State.begin_pc : (s.begin).pc = s.pc := rfl
@[simp] theorem State.begin_depth : (s.begin).depth = s.depth := rfl
@[simp] theorem State.begin_stack : (s.begin).stack = s.stack := rfl
@[simp] theorem State.begin_dt : (s.begin).dt = s.dt := rfl
@[simp] theorem State.begin_st : (s.begin).st = s.st := rfl
@[simp] theorem State.begin_mode : (s.begin).mode = s.mode := rfl
@[simp] theorem State.begin_mem : (s.begin).mem = s.mem := rfl
@[simp] theorem State.begin_fb : (s.begin).fb = s.fb := rfl
@[simp] theorem State.begin_report : (s.begin).report = .completed := rfl
@[simp] theorem State.begin_cfg : (s.begin).cfg = s.cfg := rfl
@[simp] theorem State.begin_env : (s.begin).env = { s.env with script := s.env.script.tail } := rfl
@[simp] theorem State.begin_getV (r : Reg) : (s.begin).getV r = s.getV r := rfl
@[simp] theorem State.begin_byteAt (k : Nat) : (s.begin).byteAt k = s.byteAt k := rfl
@[simp] theorem State.begin_ea (k : Nat) : (s.begin).ea k = s.ea k := rfl

/-! ### Reading a register after a write (R21) -/

@[simp] theorem State.getV_setV_same (r : Reg) (b : Byte) : (s.setV r b).getV r = b := by
  simp [State.getV]

theorem State.getV_setV_ne {r q : Reg} (h : q ≠ r) (b : Byte) : (s.setV r b).getV q = s.getV q := by
  have : r.val ≠ q.val := fun e => h (Fin.ext e.symm)
  simp [State.getV, Vector.getElem_set_ne, this]

theorem State.getV_setV (r q : Reg) (b : Byte) : (s.setV r b).getV q = if q = r then b else s.getV q := by
  by_cases h : q = r
  · subst h; simp
  · simp [State.getV_setV_ne, h]

/-- Two states with the same registers hold the same vector. -/
theorem State.v_ext {s t : State} (h : ∀ r, t.getV r = s.getV r) : t.v = s.v := by
  apply Vector.ext
  intro j hj
  exact h ⟨j, hj⟩

end Sys2Proof.Machine
end

