-- ==== Sys2Proof/Laws/Memory.lean ====
section
/-! SUPPORT. The laws of memory (R50 to R57): a read after a write, and the canonical form, which every memory operation
keeps. -/

namespace Sys2Proof.Machine

/-! ### Memory as data -/

theorem Memory.lookup_list (m : Memory) (a k : Nat) (b : Byte) :
    Memory.lookup (Memory.list a b m) k = if k = a then b else Memory.lookup m k := by
  induction m with
  | nil => simp [Memory.list, Memory.lookup, eq_comm]
  | cons c rest ih =>
    obtain ⟨q, v⟩ := c
    simp only [Memory.list]
    split
    · simp [Memory.lookup, eq_comm]
    · split
      · rename_i hlt heq
        subst heq
        by_cases h : k = q
        · simp [Memory.lookup, h]
        · simp [Memory.lookup, h, Ne.symm h]
      · rename_i hlt hne
        simp only [Memory.lookup, ih]
        by_cases h : k = a
        · subst h; simp [hne]
        · simp [h]

theorem Memory.lookup_unlist (m : Memory) (a k : Nat) :
    Memory.lookup (Memory.unlist a m) k = if k = a then bootByte a else Memory.lookup m k := by
  induction m with
  | nil => by_cases h : k = a <;> simp [Memory.unlist, Memory.lookup, h]
  | cons c rest ih =>
    obtain ⟨q, v⟩ := c
    by_cases hq : q = a
    · subst hq
      have : Memory.unlist q ((q, v) :: rest) = Memory.unlist q rest := by simp [Memory.unlist]
      rw [this, ih]
      by_cases h : k = q
      · simp [h]
      · simp [Memory.lookup, h, Ne.symm h]
    · have : Memory.unlist a ((q, v) :: rest) = (q, v) :: Memory.unlist a rest := by simp [Memory.unlist, hq]
      rw [this]
      simp only [Memory.lookup, ih]
      by_cases h : k = a
      · subst h; simp [hq]
      · simp [h]

/-- A read after a write, of any memory and at any two addresses (R52, R53, R57). -/
theorem Memory.lookup_store (m : Memory) (a k : Nat) (b : Byte) :
    Memory.lookup (Memory.store a b m) k = if k = a then b else Memory.lookup m k := by
  unfold Memory.store
  split
  · rename_i h; rw [Memory.lookup_unlist, h]
  · exact Memory.lookup_list m a k b

theorem Memory.mem_list {m : Memory} {a : Nat} {b : Byte} {c : Host.Cell} (h : c ∈ Memory.list a b m) :
    c = (a, b) ∨ c ∈ m := by
  induction m with
  | nil => simpa [Memory.list] using h
  | cons d rest ih =>
    obtain ⟨q, v⟩ := d
    simp only [Memory.list] at h
    split at h
    · simpa using h
    · split at h
      · rcases List.mem_cons.1 h with h | h
        · exact .inl h
        · exact .inr (List.mem_cons_of_mem _ h)
      · rcases List.mem_cons.1 h with h | h
        · exact .inr (h ▸ List.mem_cons_self)
        · rcases ih h with h | h
          · exact .inl h
          · exact .inr (List.mem_cons_of_mem _ h)

theorem Memory.pairwise_list {m : Memory} (a : Nat) (b : Byte) (h : m.Pairwise (fun p q => p.1 < q.1)) :
    (Memory.list a b m).Pairwise (fun p q => p.1 < q.1) := by
  induction m with
  | nil => simp [Memory.list]
  | cons d rest ih =>
    obtain ⟨q, v⟩ := d
    obtain ⟨h1, h2⟩ := List.pairwise_cons.1 h
    simp only [Memory.list]
    split
    · rename_i hlt
      refine List.pairwise_cons.2 ⟨?_, h⟩
      intro c hc
      rcases List.mem_cons.1 hc with rfl | hc
      · exact hlt
      · exact lt_trans hlt (h1 c hc)
    · split
      · rename_i hlt heq
        subst heq
        exact List.pairwise_cons.2 ⟨h1, h2⟩
      · rename_i hlt hne
        refine List.pairwise_cons.2 ⟨?_, ih h2⟩
        intro c hc
        rcases Memory.mem_list hc with rfl | hc
        · change q < a
          omega
        · exact h1 c hc

/-- A write inside the address space keeps the canonical form. -/
theorem Memory.wf_store {m : Memory} {a : Nat} (b : Byte) (hm : Memory.wf m) (ha : a < memSize) :
    Memory.wf (Memory.store a b m) := by
  unfold Memory.store
  split
  · exact ⟨hm.1.sublist List.filter_sublist, fun c hc => hm.2 c (List.mem_filter.1 hc).1⟩
  · rename_i hb
    refine ⟨Memory.pairwise_list a b hm.1, fun c hc => ?_⟩
    rcases Memory.mem_list hc with rfl | hc
    · exact ⟨ha, hb⟩
    · exact hm.2 c hc

theorem Memory.wf_nil : Memory.wf [] := by simp [Memory.wf]

theorem Memory.wf_reset : Memory.wf State.reset.mem := Memory.wf_nil

/-! ### Two canonical memories that read the same are the same list -/

theorem Memory.lookup_of_mem {m : Memory} (h : m.Pairwise (fun p q => p.1 < q.1)) {c : Host.Cell} (hc : c ∈ m) :
    Memory.lookup m c.1 = c.2 := by
  induction m with
  | nil => cases hc
  | cons d rest ih =>
    obtain ⟨q, v⟩ := d
    obtain ⟨h1, h2⟩ := List.pairwise_cons.1 h
    rcases List.mem_cons.1 hc with rfl | hc
    · simp [Memory.lookup]
    · have hne : q ≠ c.1 := Nat.ne_of_lt (h1 c hc)
      simp [Memory.lookup, hne, ih h2 hc]

theorem Memory.lookup_of_notMem {m : Memory} {a : Nat} (h : ∀ c ∈ m, c.1 ≠ a) : Memory.lookup m a = bootByte a := by
  induction m with
  | nil => rfl
  | cons d rest ih =>
    obtain ⟨q, v⟩ := d
    have hq : q ≠ a := h (q, v) List.mem_cons_self
    simp [Memory.lookup, hq, ih (fun c hc => h c (List.mem_cons_of_mem _ hc))]

/-! ### Accesses of the machine (R52 to R54) -/

theorem memRead_ok {a : Nat} (s : State) (h : a < memSize) : memRead a s = .ok (s.byteAt a) := by
  simp [memRead, h]

theorem memRead_error {a : Nat} (s : State) (h : memSize ≤ a) : memRead a s = .error .addressOutOfRange := by
  have : ¬ a < memSize := by omega
  simp [memRead, this]

theorem memWrite_ok {a : Nat} (b : Byte) (s : State) (h : a < memSize) :
    memWrite a b s = .ok { s with mem := Memory.store a b s.mem } := by
  simp [memWrite, h]

theorem memWrite_error {a : Nat} (b : Byte) (s : State) (h : memSize ≤ a) :
    memWrite a b s = .error .addressOutOfRange := by
  have : ¬ a < memSize := by omega
  simp [memWrite, this]

theorem memReadWord_ok {a : Nat} (s : State) (h : a + 1 < memSize) :
    memReadWord a s = .ok (wordOfBytes (s.byteAt a) (s.byteAt (a + 1))) := by
  rw [memReadWord, memRead_ok s (by omega), memRead_ok s h]

theorem memReadWord_error {a : Nat} (s : State) (h : memSize ≤ a + 1) :
    memReadWord a s = .error .addressOutOfRange := by
  unfold memReadWord
  rw [memRead_error s h]
  cases memRead a s <;> rfl

end Sys2Proof.Machine
end

