-- ==== Sys2Proof/Laws/Ops.lean ====
section
/-! SUPPORT. One lemma for each shared operation that says everything it can do; proofs cite these and do not unfold the
operation. -/

namespace Sys2Proof.Machine

/-! ### Continuations -/

theorem andThen_next {α : Type} {r : Except Fault α} {k : α → Result} {t : State} :
    andThen r k = .next t ↔ ∃ a, r = .ok a ∧ k a = .next t := by
  cases r <;> simp [andThen, raise]

theorem andThen_fault {α : Type} {r : Except Fault α} {k : α → Result} {c : Fault} :
    andThen r k = .fault c ↔ r = .error c ∨ ∃ a, r = .ok a ∧ k a = .fault c := by
  cases r <;> simp [andThen, raise]

theorem andThen_refused {α : Type} {r : Except Fault α} {k : α → Result} {q : Refusal} :
    andThen r k = .refused q ↔ ∃ a, r = .ok a ∧ k a = .refused q := by
  cases r <;> simp [andThen, raise]

/-! ### Bytes at ascending addresses -/

theorem lookup_placeBytes (bs : List Byte) (a : Nat) (m : Memory) (k : Nat) :
    Memory.lookup (placeBytes a bs m) k =
      if a ≤ k ∧ k < a + bs.length then bs.getD (k - a) 0 else Memory.lookup m k := by
  induction bs generalizing a m with
  | nil =>
    have : ¬ (a ≤ k ∧ k < a + ([] : List Byte).length) := by simp
    rw [if_neg this]; rfl
  | cons b bs ih =>
    rw [placeBytes, ih, Memory.lookup_store]
    simp only [List.length_cons]
    by_cases h1 : k = a
    · subst h1
      have h3 : k ≤ k ∧ k < k + (bs.length + 1) := by omega
      simp [h3]
    · by_cases h2 : a + 1 ≤ k ∧ k < a + 1 + bs.length
      · have h3 : a ≤ k ∧ k < a + (bs.length + 1) := by omega
        obtain ⟨j, hj⟩ : ∃ j, k - a = j + 1 := ⟨k - a - 1, by omega⟩
        have h4 : k - (a + 1) = j := by omega
        simp only [if_pos h2, if_pos h3, h4, hj, List.getD_cons_succ]
      · have h3 : ¬ (a ≤ k ∧ k < a + (bs.length + 1)) := by omega
        rw [if_neg h2, if_neg h3, if_neg h1]

theorem wf_placeBytes (bs : List Byte) {a : Nat} {m : Memory} (hm : Memory.wf m) (h : a + bs.length ≤ memSize) :
    Memory.wf (placeBytes a bs m) := by
  induction bs generalizing a m with
  | nil => exact hm
  | cons b bs ih =>
    simp only [List.length_cons] at h
    exact ih (Memory.wf_store b hm (by omega)) (by omega)

theorem storeBytes_ok (bs : List Byte) {a : Nat} (s : State) (h : a + bs.length ≤ memSize) :
    storeBytes a bs s = .next { s with mem := placeBytes a bs s.mem } := by
  induction bs generalizing a s with
  | nil => rfl
  | cons b bs ih =>
    simp only [List.length_cons] at h
    rw [storeBytes, memWrite_ok b s (by omega)]
    exact ih _ (by omega)

theorem storeBytes_fault (bs : List Byte) {a : Nat} (s : State) (hne : bs ≠ []) (h : memSize < a + bs.length) :
    storeBytes a bs s = .fault .addressOutOfRange := by
  induction bs generalizing a s with
  | nil => exact absurd rfl hne
  | cons b bs ih =>
    simp only [List.length_cons] at h
    rw [storeBytes]
    by_cases ha : a < memSize
    · rw [memWrite_ok b s ha]
      by_cases hb : bs = []
      · subst hb; simp at h; omega
      · exact ih _ hb (by omega)
    · rw [memWrite_error b s (by omega)]; rfl

theorem readBytes_ok (n : Nat) {a : Nat} (s : State) (h : n = 0 ∨ a + n ≤ memSize) :
    readBytes a n s = .ok ((List.range n).map (fun k => s.byteAt (a + k))) := by
  induction n generalizing a with
  | zero => rfl
  | succ n ih =>
    have h' : a + (n + 1) ≤ memSize := by omega
    rw [readBytes, memRead_ok s (by omega), ih (by omega), List.range_succ_eq_map]
    simp only [List.map_cons, List.map_map, Nat.add_zero]
    congr 2
    apply List.map_congr_left
    intro k _
    simp [Nat.add_assoc, Nat.add_comm 1]

theorem readBytes_error (n : Nat) {a : Nat} (s : State) (hn : n ≠ 0) (h : memSize < a + n) :
    readBytes a n s = .error .addressOutOfRange := by
  induction n generalizing a with
  | zero => exact absurd rfl hn
  | succ n ih =>
    rw [readBytes]
    by_cases ha : a < memSize
    · rw [memRead_ok s ha]
      by_cases hz : n = 0
      · subst hz; omega
      · rw [ih hz (by omega)]
    · rw [memRead_error s (by omega)]

/-! ### Registers to memory and back (R144, R145) -/

theorem mem_regsUpTo (x r : Reg) : r ∈ regsUpTo x ↔ r ≤ x := by
  revert x r; decide

theorem storeRegs_ok {base : Nat} (rs : List Reg) (s : State) (h : ∀ r ∈ rs, base + r.val < memSize) :
    storeRegs base rs s =
      .next { s with mem := rs.foldl (fun m r => Memory.store (base + r.val) (s.getV r) m) s.mem } := by
  induction rs generalizing s with
  | nil => rfl
  | cons r rs ih =>
    rw [storeRegs, memWrite_ok _ s (h r List.mem_cons_self)]
    exact ih _ (fun q hq => h q (List.mem_cons_of_mem _ hq))

theorem storeRegs_fault {base : Nat} {rs : List Reg} (s : State) (h : ∃ r ∈ rs, memSize ≤ base + r.val) :
    storeRegs base rs s = .fault .addressOutOfRange := by
  induction rs generalizing s with
  | nil => obtain ⟨r, hr, _⟩ := h; cases hr
  | cons r rs ih =>
    rw [storeRegs]
    by_cases ha : base + r.val < memSize
    · rw [memWrite_ok _ s ha]
      obtain ⟨q, hq, hge⟩ := h
      rcases List.mem_cons.1 hq with rfl | hq
      · omega
      · exact ih _ ⟨q, hq, hge⟩
    · rw [memWrite_error _ s (by omega)]; rfl

theorem lookup_storeRegs (base : Nat) (val : Reg → Byte) (rs : List Reg) (m : Memory) (k : Nat) :
    Memory.lookup (rs.foldl (fun m r => Memory.store (base + r.val) (val r) m) m) k =
      if h : base ≤ k ∧ k < base + 16 then
        if (⟨k - base, by omega⟩ : Reg) ∈ rs then val ⟨k - base, by omega⟩ else Memory.lookup m k
      else Memory.lookup m k := by
  induction rs generalizing m with
  | nil => simp
  | cons r rs ih =>
    rw [List.foldl_cons, ih, Memory.lookup_store]
    by_cases hk : base ≤ k ∧ k < base + 16
    · simp only [dif_pos hk, List.mem_cons]
      by_cases hr : k = base + r.val
      · have : (⟨k - base, by omega⟩ : Reg) = r := by apply Fin.ext; simp; omega
        simp [hr]
      · have : ¬ (⟨k - base, by omega⟩ : Reg) = r := by
          intro e; have := congrArg Fin.val e; simp at this; omega
        simp [hr, this]
    · have hr : k ≠ base + r.val := by have := r.isLt; omega
      simp [dif_neg hk, hr]

theorem wf_storeRegs {base : Nat} (val : Reg → Byte) (rs : List Reg) {m : Memory} (hm : Memory.wf m)
    (h : ∀ r ∈ rs, base + r.val < memSize) :
    Memory.wf (rs.foldl (fun m r => Memory.store (base + r.val) (val r) m) m) := by
  induction rs generalizing m with
  | nil => exact hm
  | cons r rs ih =>
    exact ih (Memory.wf_store _ hm (h r List.mem_cons_self)) (fun q hq => h q (List.mem_cons_of_mem _ hq))

/-- Registers written one after the other: only `v` changes. -/
theorem loadRegs_ok {base : Nat} (rs : List Reg) (s : State) (h : ∀ r ∈ rs, base + r.val < memSize) :
    ∃ t, loadRegs base rs s = .next t ∧ t = { s with v := t.v } ∧
      ∀ q, t.getV q = if q ∈ rs then s.byteAt (base + q.val) else s.getV q := by
  induction rs generalizing s with
  | nil => exact ⟨s, rfl, rfl, by simp⟩
  | cons r rs ih =>
    obtain ⟨t, h1, h2, h3⟩ := ih (s.setV r (s.byteAt (base + r.val))) (fun q hq => h q (List.mem_cons_of_mem _ hq))
    refine ⟨t, ?_, h2, fun q => ?_⟩
    · rw [loadRegs, memRead_ok s (h r List.mem_cons_self)]; exact h1
    · rw [h3, State.getV_setV]
      by_cases hq : q ∈ rs
      · simp [hq]
      · by_cases hr : q = r
        · simp [hr]
        · simp [hq, hr]

theorem loadRegs_fault {base : Nat} {rs : List Reg} (s : State) (h : ∃ r ∈ rs, memSize ≤ base + r.val) :
    loadRegs base rs s = .fault .addressOutOfRange := by
  induction rs generalizing s with
  | nil => obtain ⟨r, hr, _⟩ := h; cases hr
  | cons r rs ih =>
    rw [loadRegs]
    by_cases ha : base + r.val < memSize
    · rw [memRead_ok s ha]
      obtain ⟨q, hq, hge⟩ := h
      rcases List.mem_cons.1 hq with rfl | hq
      · omega
      · exact ih _ ⟨q, hq, hge⟩
    · rw [memRead_error s (by omega)]; rfl

/-! ### The return stack (R26, R27) -/

theorem push_ok (w : Word) (s : State) (k : State → Result) (h : s.depth.val < 16) :
    push w s k =
      k { s with stack := s.stack.set s.depth.val w h, depth := ⟨s.depth.val + 1, by omega⟩ } := by
  simp [push, h]

theorem push_full (w : Word) (s : State) (k : State → Result) (h : s.depth.val = 16) :
    push w s k = .fault .stackOverflow := by
  simp [push, raise, h]

theorem pop_ok (s : State) (k : Word → State → Result) (h : s.depth.val ≠ 0) :
    pop s k =
      k (s.stack[s.depth.val - 1]'(by have := s.depth.isLt; omega))
        { s with depth := ⟨s.depth.val - 1, by have := s.depth.isLt; omega⟩ } := by
  simp [pop, h]

theorem pop_empty (s : State) (k : Word → State → Result) (h : s.depth.val = 0) :
    pop s k = .fault .stackUnderflow := by
  simp [pop, raise, h]

/-! ### Flag first, result second (R9) -/

/-- The registers after `flagThenResult`: the result is computed from the registers the flag write left. -/
theorem flagThenResult_getV (flag result : Byte → Byte → Byte) (x a b : Reg) (s : State) (q : Reg) :
    (flagThenResult flag result x a b s).getV q =
      if q = x then
        result (if a = regF then flag (s.getV a) (s.getV b) else s.getV a)
          (if b = regF then flag (s.getV a) (s.getV b) else s.getV b)
      else if q = regF then flag (s.getV a) (s.getV b)
      else s.getV q := by
  simp only [flagThenResult, State.getV_setV]

/-- `flagThenResult` changes only registers. -/
theorem flagThenResult_rest (flag result : Byte → Byte → Byte) (x a b : Reg) (s : State) :
    flagThenResult flag result x a b s = { s with v := (flagThenResult flag result x a b s).v } := rfl

/-! ### Fetch (R91, R92) -/

theorem fetch_ok (s : State) (h : s.pc.toNat + 1 < memSize) :
    fetch s = .ok (decode (wordOfBytes (s.byteAt s.pc.toNat) (s.byteAt (s.pc.toNat + 1))), s.setPc (s.pc + 2)) := by
  rw [fetch, memReadWord_ok s h]

theorem fetch_error (s : State) (h : memSize ≤ s.pc.toNat + 1) : fetch s = .error .addressOutOfRange := by
  rw [fetch, memReadWord_error s h]

end Sys2Proof.Machine
end

