-- ==== Sys2Proof/Laws/Raster.lean ====
section
/-! SUPPORT. The laws of the frame buffer and of the rasterizer (R150 to R152): one cell after a write, which cells a
sprite covers, and what flipping a list of distinct cells does. -/

namespace Sys2Proof.Machine

theorem FrameBuffer.get_put (f : FrameBuffer) (p q : Pixel) (b : Bool) :
    FrameBuffer.get (FrameBuffer.put f p b) q = if q = p then b else FrameBuffer.get f q := by
  obtain ⟨px, py⟩ := p
  obtain ⟨qx, qy⟩ := q
  simp only [FrameBuffer.get, FrameBuffer.put]
  by_cases hy : qy = py
  · subst hy
    by_cases hx : qx = px
    · subst hx; simp
    · have : px.val ≠ qx.val := fun e => hx (Fin.ext e.symm)
      simp [Vector.getElem_set_ne, this, hx]
  · have : py.val ≠ qy.val := fun e => hy (Fin.ext e.symm)
    simp [Vector.getElem_set_ne, this, hy]

@[simp] theorem FrameBuffer.get_blank (p : Pixel) : FrameBuffer.get FrameBuffer.blank p = false := by
  simp [FrameBuffer.get, FrameBuffer.blank]

/-- Two frame buffers with the same cells are equal. -/
theorem FrameBuffer.ext_get {f g : FrameBuffer} (h : ∀ p, FrameBuffer.get f p = FrameBuffer.get g p) : f = g := by
  apply Vector.ext; intro y hy
  apply Vector.ext; intro x hx
  exact h (⟨x, hx⟩, ⟨y, hy⟩)

theorem mem_rowPixels {ox y : Nat} {row : Byte} {p : Pixel} :
    p ∈ rowPixels ox y row ↔ ∃ b, b < 8 ∧ row.getLsbD (7 - b) = true ∧ p = wrapPixel (ox + b) y := by
  simp only [rowPixels, List.mem_map, List.mem_filter, List.mem_range]
  constructor
  · rintro ⟨b, ⟨h1, h2⟩, rfl⟩; exact ⟨b, h1, h2, rfl⟩
  · rintro ⟨b, h1, h2, rfl⟩; exact ⟨b, ⟨h1, h2⟩, rfl⟩

/-- The cells a sprite covers: bit `7 - b` of row `r` covers the cell `b` to the right and `r` below the origin (R151). -/
theorem mem_spritePixels {ox y : Nat} {rows : List Byte} {p : Pixel} :
    p ∈ spritePixels ox y rows ↔
      ∃ r b, r < rows.length ∧ b < 8 ∧ (rows.getD r 0).getLsbD (7 - b) = true ∧ p = wrapPixel (ox + b) (y + r) := by
  induction rows generalizing y with
  | nil => simp [spritePixels]
  | cons row rows ih =>
    rw [spritePixels, List.mem_append, mem_rowPixels, ih]
    constructor
    · rintro (⟨b, hb, h1, h2⟩ | ⟨r, b, hr, hb, h1, h2⟩)
      · exact ⟨0, b, by simp, hb, by simpa using h1, by simpa using h2⟩
      · exact ⟨r + 1, b, by simpa using hr, hb, by simpa using h1, by rw [h2]; congr 1; omega⟩
    · rintro ⟨r, b, hr, hb, h1, h2⟩
      cases r with
      | zero => exact .inl ⟨b, hb, by simpa using h1, by simpa using h2⟩
      | succ r => exact .inr ⟨r, b, by simpa using hr, hb, by simpa using h1, by rw [h2]; congr 1; omega⟩

theorem wrapPixel_inj {x x' y y' : Nat} (h : wrapPixel x y = wrapPixel x' y') : x % 64 = x' % 64 ∧ y % 32 = y' % 32 := by
  have h1 := congrArg (fun p : Pixel => p.1.val) h
  have h2 := congrArg (fun p : Pixel => p.2.val) h
  exact ⟨h1, h2⟩

theorem nodup_rowPixels (ox y : Nat) (row : Byte) : (rowPixels ox y row).Nodup := by
  refine List.Nodup.map_on ?_ (List.Nodup.filter _ List.nodup_range)
  intro a ha b hb h
  have ha := List.mem_range.1 (List.mem_filter.1 ha).1
  have hb := List.mem_range.1 (List.mem_filter.1 hb).1
  have := (wrapPixel_inj h).1
  omega

/-- No cell is touched twice by a sprite of at most 32 rows (R152). -/
theorem nodup_spritePixels (ox : Nat) (rows : List Byte) (y : Nat) (h : rows.length ≤ 32) :
    (spritePixels ox y rows).Nodup := by
  induction rows generalizing y with
  | nil => simp [spritePixels]
  | cons row rows ih =>
    simp only [List.length_cons] at h
    refine List.Nodup.append (nodup_rowPixels ox y row) (ih (y + 1) (by omega)) ?_
    intro p hp hq
    obtain ⟨b, _, _, rfl⟩ := mem_rowPixels.1 hp
    obtain ⟨r, b', hr, _, _, h2⟩ := mem_spritePixels.1 hq
    have := (wrapPixel_inj h2).2
    omega

theorem flipPixel_get (acc : FrameBuffer × Bool) (p q : Pixel) :
    FrameBuffer.get (flipPixel acc p).1 q = (FrameBuffer.get acc.1 q ^^ decide (q = p)) := by
  simp only [flipPixel, FrameBuffer.get_put]
  by_cases h : q = p
  · simp [h]
  · simp [h]

/-- Flipping distinct cells: each is inverted, and there is a collision exactly when one was set before (R152). -/
theorem foldl_flipPixel (ps : List Pixel) (h : ps.Nodup) (f : FrameBuffer) (c : Bool) :
    (∀ q, FrameBuffer.get (ps.foldl flipPixel (f, c)).1 q = (FrameBuffer.get f q ^^ decide (q ∈ ps))) ∧
      ((ps.foldl flipPixel (f, c)).2 = true ↔ c = true ∨ ∃ q ∈ ps, FrameBuffer.get f q = true) := by
  induction ps generalizing f c with
  | nil => simp
  | cons p ps ih =>
    obtain ⟨hp, hps⟩ := List.nodup_cons.1 h
    have e : flipPixel (f, c) p = ((flipPixel (f, c) p).1, c || FrameBuffer.get f p) := rfl
    rw [List.foldl_cons, e]
    obtain ⟨h1, h2⟩ := ih hps (flipPixel (f, c) p).1 (c || FrameBuffer.get f p)
    refine ⟨fun q => ?_, ?_⟩
    · rw [h1, flipPixel_get]
      by_cases hq : q = p
      · subst hq; simp [hp]
      · simp [hq]
    · rw [h2]
      have same : ∀ q ∈ ps, FrameBuffer.get (flipPixel (f, c) p).1 q = FrameBuffer.get f q := by
        intro q hq
        have : q ≠ p := fun e => hp (e ▸ hq)
        simp [flipPixel_get, this]
      simp only [List.mem_cons, exists_eq_or_imp, Bool.or_eq_true, or_assoc]
      refine or_congr_right (or_congr_right ⟨?_, ?_⟩)
      · rintro ⟨q, hq, hg⟩; exact ⟨q, hq, by rwa [same q hq] at hg⟩
      · rintro ⟨q, hq, hg⟩; exact ⟨q, hq, by rwa [same q hq]⟩

/-- What one draw does to each cell, and when it collides (R151, R152). -/
theorem drawSprite_spec (ox oy : Byte) (rows : List Byte) (f : FrameBuffer) (h : rows.length ≤ 32) :
    (∀ q, FrameBuffer.get (drawSprite ox oy rows f).1 q =
        (FrameBuffer.get f q ^^ decide (q ∈ spritePixels ox.toNat oy.toNat rows))) ∧
      ((drawSprite ox oy rows f).2 = true ↔
        ∃ q ∈ spritePixels ox.toNat oy.toNat rows, FrameBuffer.get f q = true) := by
  obtain ⟨h1, h2⟩ := foldl_flipPixel _ (nodup_spritePixels ox.toNat rows oy.toNat h) f false
  exact ⟨h1, by simpa [drawSprite] using h2⟩

end Sys2Proof.Machine
end

