-- ==== Sys2Proof/Laws/Exec.lean ====
section
/-! SUPPORT. Inversion of the six meanings that can stop, and of the step: each lemma says once everything the operation
can do when it answers a next state. The other meanings answer `.next` of one expression, by definition. -/

namespace Sys2Proof.Machine

variable {s t : State}

/-! ### Call and return -/

theorem execCall_next {nnn : BitVec 12} (h : execCall nnn s = .next t) :
    ∃ hd : s.depth.val < 16,
      t = { s with
        pc := addr12 nnn, depth := ⟨s.depth.val + 1, by omega⟩, stack := s.stack.set s.depth.val s.pc hd } := by
  by_cases hd : s.depth.val < 16
  · refine ⟨hd, ?_⟩
    rw [execCall, push_ok _ _ _ hd] at h
    exact (Host.Outcome.next.inj h).symm
  · have : s.depth.val = 16 := by have := s.depth.isLt; omega
    rw [execCall, push_full _ _ _ this] at h
    cases h

theorem execRet_next (h : execRet s = .next t) :
    ∃ _hd : s.depth.val ≠ 0,
      t = { s with
        pc := s.stack[s.depth.val - 1]'(by have := s.depth.isLt; omega)
        depth := ⟨s.depth.val - 1, by have := s.depth.isLt; omega⟩ } := by
  by_cases hd : s.depth.val = 0
  · rw [execRet, pop_empty _ _ hd] at h
    cases h
  · refine ⟨hd, ?_⟩
    rw [execRet, pop_ok _ _ hd] at h
    exact (Host.Outcome.next.inj h).symm

/-! ### Memory -/

theorem bcdDigits_length (b : Byte) : (bcdDigits b).length = 3 := rfl

theorem execLdB_next {x : Reg} (h : execLdB x s = .next t) :
    s.ea 2 < memSize ∧ t = { s with mem := placeBytes (s.ea 0) (bcdDigits (s.getV x)) s.mem } := by
  by_cases hb : s.ea 0 + (bcdDigits (s.getV x)).length ≤ memSize
  · rw [execLdB, storeBytes_ok _ _ hb] at h
    refine ⟨?_, (Host.Outcome.next.inj h).symm⟩
    simp only [bcdDigits_length, State.ea] at hb ⊢
    omega
  · rw [execLdB, storeBytes_fault _ _ (by simp [bcdDigits]) (by omega)] at h
    cases h

theorem execStRegs_next {x : Reg} (h : execStRegs x s = .next t) :
    s.ea x.val < memSize ∧
      t = { s with mem := (regsUpTo x).foldl (fun m r => Memory.store (s.ea 0 + r.val) (s.getV r) m) s.mem } := by
  by_cases hb : s.ea x.val < memSize
  · refine ⟨hb, ?_⟩
    rw [execStRegs, storeRegs_ok] at h
    · exact (Host.Outcome.next.inj h).symm
    · intro r hr
      have : r.val ≤ x.val := (mem_regsUpTo x r).1 hr
      simp only [State.ea] at hb ⊢
      omega
  · rw [execStRegs, storeRegs_fault] at h
    · cases h
    · refine ⟨x, (mem_regsUpTo x x).2 (le_refl x), ?_⟩
      simp only [State.ea] at hb ⊢
      omega

theorem execLdRegs_next {x : Reg} (h : execLdRegs x s = .next t) :
    s.ea x.val < memSize ∧ t = { s with v := t.v } ∧
      ∀ q, t.getV q = if q ≤ x then s.byteAt (s.ea q.val) else s.getV q := by
  by_cases hb : s.ea x.val < memSize
  · obtain ⟨u, h1, h2, h3⟩ := loadRegs_ok (base := s.ea 0) (regsUpTo x) s (by
      intro r hr
      have : r.val ≤ x.val := (mem_regsUpTo x r).1 hr
      simp only [State.ea] at hb ⊢
      omega)
    rw [execLdRegs, h1] at h
    obtain rfl := Host.Outcome.next.inj h
    refine ⟨hb, h2, fun q => ?_⟩
    rw [h3]
    simp only [mem_regsUpTo, State.ea, Nat.add_zero]
  · rw [execLdRegs, loadRegs_fault] at h
    · cases h
    · refine ⟨x, (mem_regsUpTo x x).2 (le_refl x), ?_⟩
      simp only [State.ea] at hb ⊢
      omega

/-! ### Draw -/

/-- The rows a draw reads. -/
def spriteRows (s : State) (n : Fin 16) : List Byte := (List.range n.val).map (fun k => s.byteAt (s.ea 0 + k))

theorem execDrw_next {x y : Reg} {n : Fin 16} (h : execDrw x y n s = .next t) :
    (n.val = 0 ∨ s.ea (n.val - 1) < memSize) ∧
      t = (((s.setFb (drawSprite (s.getV x) (s.getV y) (spriteRows s n) s.fb).1).setV regF
        (b2i (drawSprite (s.getV x) (s.getV y) (spriteRows s n) s.fb).2)).setReport .frameUpdated) := by
  by_cases hb : n.val = 0 ∨ s.ea 0 + n.val ≤ memSize
  · rw [execDrw, readBytes_ok _ _ hb] at h
    refine ⟨?_, (Host.Outcome.next.inj h).symm⟩
    simp only [State.ea] at hb ⊢
    omega
  · rw [execDrw, readBytes_error _ _ (by omega) (by omega)] at h
    cases h

/-! ### The step -/

@[simp] theorem State.begin_nextOp_script : s.begin.env.script = s.env.script.tail := rfl

/-- What a step can do: one of the five operations; a `Cycle` waits, or fetches and executes. -/
theorem step_next (h : step s = .next t) :
    (s.nextOp = .reset ∧ t = hostReset s.begin) ∨
    (∃ bytes, s.nextOp = .loadProgram bytes ∧ t = hostLoadProgram bytes s.begin) ∨
    (s.nextOp = .tickTimers ∧ t = hostTickTimers s.begin) ∨
    (∃ k, s.nextOp = .keyEvent k ∧ t = hostKeyEvent k s.begin) ∨
    (s.nextOp = .cycle ∧ (∃ r, s.mode = .awaitingKey r) ∧ t = s.begin) ∨
    (s.nextOp = .cycle ∧ s.mode = .running ∧ s.pc.toNat + 1 < memSize ∧
      exec (decode (wordOfBytes (s.byteAt s.pc.toNat) (s.byteAt (s.pc.toNat + 1)))) (s.begin.setPc (s.pc + 2)) =
        .next t) := by
  unfold step perform at h
  cases hop : s.nextOp with
  | reset => rw [hop] at h; exact .inl ⟨rfl, (Host.Outcome.next.inj h).symm⟩
  | loadProgram bytes => rw [hop] at h; exact .inr (.inl ⟨bytes, rfl, (Host.Outcome.next.inj h).symm⟩)
  | tickTimers => rw [hop] at h; exact .inr (.inr (.inl ⟨rfl, (Host.Outcome.next.inj h).symm⟩))
  | keyEvent k => rw [hop] at h; exact .inr (.inr (.inr (.inl ⟨k, rfl, (Host.Outcome.next.inj h).symm⟩)))
  | cycle =>
    rw [hop] at h
    refine .inr (.inr (.inr (.inr ?_)))
    simp only [cycle, State.begin_mode] at h
    cases hm : s.mode with
    | awaitingKey r => rw [hm] at h; exact .inl ⟨rfl, ⟨r, rfl⟩, (Host.Outcome.next.inj h).symm⟩
    | faulted c => rw [hm] at h; cases h
    | running =>
      rw [hm] at h
      refine .inr ⟨rfl, rfl, ?_⟩
      obtain ⟨p, hp, he⟩ := andThen_next.1 h
      by_cases hb : s.begin.pc.toNat + 1 < memSize
      · rw [fetch_ok _ hb] at hp
        cases hp
        exact ⟨hb, he⟩
      · rw [fetch_error _ (by omega)] at hp
        cases hp

/-! ### The host's operations -/

theorem toNat_tickDown (b : Byte) : (tickDown b).toNat = b.toNat - 1 := by
  revert b; decide

theorem hostLoadProgram_ok {bytes : List Byte} (hm : ∀ c, s.mode ≠ .faulted c) (h : bytes.length ≤ progCapacity) :
    hostLoadProgram bytes s = { s with mem := placeBytes progBase bytes s.mem } := by
  unfold hostLoadProgram
  split
  · rename_i c hc; exact absurd hc (hm c)
  · simp [h]
  · simp [h]

theorem hostLoadProgram_tooLarge {bytes : List Byte} (hm : ∀ c, s.mode ≠ .faulted c)
    (h : progCapacity < bytes.length) : hostLoadProgram bytes s = s.setReport (.failed .programTooLarge) := by
  have h' : ¬ bytes.length ≤ progCapacity := by omega
  unfold hostLoadProgram
  split
  · rename_i c hc; exact absurd hc (hm c)
  · rw [if_neg h']
  · rw [if_neg h']

theorem hostTickTimers_ok (hm : ∀ c, s.mode ≠ .faulted c) :
    hostTickTimers s = (s.setDt (tickDown s.dt)).setSt (tickDown s.st) := by
  unfold hostTickTimers
  split
  · rename_i c hc; exact absurd hc (hm c)
  · rfl
  · rfl

end Sys2Proof.Machine
end

