-- ==== Sys2Proof/Laws/PerInstr.lean ====
section
/-! SUPPORT. The family RowMatch, about instructions as syntax: the word of every well-formed instruction has the fixed bits
of its own row of Table 30-2 (R75). One lemma for each constructor. -/

namespace Sys2Proof.Laws

/-- The fixed bits of each instruction's row of Table 30-2: mask and match (R75). -/
def rowBits : Instr → Word × Word
  | .cls => (0xFFFF, 0x00E0)
  | .ret => (0xFFFF, 0x00EE)
  | .sys _ => (0xF000, 0x0000)
  | .jp _ => (0xF000, 0x1000)
  | .call _ => (0xF000, 0x2000)
  | .seImm _ _ => (0xF000, 0x3000)
  | .sneImm _ _ => (0xF000, 0x4000)
  | .seReg _ _ => (0xF00F, 0x5000)
  | .ldImm _ _ => (0xF000, 0x6000)
  | .addImm _ _ => (0xF000, 0x7000)
  | .ldReg _ _ => (0xF00F, 0x8000)
  | .or _ _ => (0xF00F, 0x8001)
  | .and _ _ => (0xF00F, 0x8002)
  | .xor _ _ => (0xF00F, 0x8003)
  | .addReg _ _ => (0xF00F, 0x8004)
  | .sub _ _ => (0xF00F, 0x8005)
  | .shr _ _ => (0xF00F, 0x8006)
  | .subn _ _ => (0xF00F, 0x8007)
  | .shl _ _ => (0xF00F, 0x800E)
  | .sneReg _ _ => (0xF00F, 0x9000)
  | .ldI _ => (0xF000, 0xA000)
  | .jpV0 _ => (0xF000, 0xB000)
  | .rnd _ _ => (0xF000, 0xC000)
  | .drw _ _ _ => (0xF000, 0xD000)
  | .skp _ => (0xF0FF, 0xE09E)
  | .sknp _ => (0xF0FF, 0xE0A1)
  | .ldVxDt _ => (0xF0FF, 0xF007)
  | .ldVxK _ => (0xF0FF, 0xF00A)
  | .ldDtVx _ => (0xF0FF, 0xF015)
  | .ldStVx _ => (0xF0FF, 0xF018)
  | .addI _ => (0xF0FF, 0xF01E)
  | .ldF _ => (0xF0FF, 0xF029)
  | .ldB _ => (0xF0FF, 0xF033)
  | .stRegs _ => (0xF0FF, 0xF055)
  | .ldRegs _ => (0xF0FF, 0xF065)
  | .undef _ => (0x0000, 0x0000)

/-- The word of a well-formed instruction has its row's fixed bits. -/
def RowMatch.Statement (i : Instr) : Prop := i.wellFormed = true → encode i &&& (rowBits i).1 = (rowBits i).2

theorem nnn_fixed {f : Nat} (hf : f < 16) (nnn : BitVec 12) : encNNN f nnn &&& 0xF000 = BitVec.ofNat 16 (f * 4096) := by
  apply BitVec.eq_of_toNat_eq
  rw [toNat_mask_family, toNat_encNNN hf, BitVec.toNat_ofNat]
  have := nnn.isLt
  omega

theorem xnn_fixed {f : Nat} (hf : f < 16) (x : Reg) (nn : Byte) :
    encXNN f x nn &&& 0xF000 = BitVec.ofNat 16 (f * 4096) := by
  apply BitVec.eq_of_toNat_eq
  rw [toNat_mask_family, toNat_encXNN hf, BitVec.toNat_ofNat]
  have := nn.isLt
  have := x.isLt
  omega

theorem x_fixed {f : Nat} (hf : f < 16) (x : Reg) (nn : Byte) :
    encXNN f x nn &&& 0xF0FF = BitVec.ofNat 16 (f * 4096 + nn.toNat) := by
  apply BitVec.eq_of_toNat_eq
  rw [toNat_mask_family_low, toNat_encXNN hf, BitVec.toNat_ofNat]
  have := nn.isLt
  have := x.isLt
  omega

theorem xyn_fixed {f : Nat} (hf : f < 16) (x y : Reg) (n : Fin 16) :
    encXYN f x y n &&& 0xF000 = BitVec.ofNat 16 (f * 4096) := by
  apply BitVec.eq_of_toNat_eq
  rw [toNat_mask_family, toNat_encXYN hf, BitVec.toNat_ofNat]
  have := x.isLt
  have := y.isLt
  have := n.isLt
  omega

theorem xy_fixed {f : Nat} (hf : f < 16) (x y : Reg) (n : Fin 16) :
    encXYN f x y n &&& 0xF00F = BitVec.ofNat 16 (f * 4096 + n.val) := by
  apply BitVec.eq_of_toNat_eq
  rw [toNat_mask_family_last, toNat_encXYN hf, BitVec.toNat_ofNat]
  have := x.isLt
  have := y.isLt
  have := n.isLt
  omega

theorem RowMatch.cls : RowMatch.Statement .cls := fun _ => by decide
theorem RowMatch.ret : RowMatch.Statement .ret := fun _ => by decide
theorem RowMatch.sys (nnn : BitVec 12) : RowMatch.Statement (.sys nnn) := fun _ => nnn_fixed (by decide) nnn
theorem RowMatch.jp (nnn : BitVec 12) : RowMatch.Statement (.jp nnn) := fun _ => nnn_fixed (by decide) nnn
theorem RowMatch.call (nnn : BitVec 12) : RowMatch.Statement (.call nnn) := fun _ => nnn_fixed (by decide) nnn
theorem RowMatch.seImm (x : Reg) (nn : Byte) : RowMatch.Statement (.seImm x nn) := fun _ => xnn_fixed (by decide) x nn
theorem RowMatch.sneImm (x : Reg) (nn : Byte) : RowMatch.Statement (.sneImm x nn) := fun _ => xnn_fixed (by decide) x nn
theorem RowMatch.seReg (x y : Reg) : RowMatch.Statement (.seReg x y) := fun _ => xy_fixed (by decide) x y _
theorem RowMatch.ldImm (x : Reg) (nn : Byte) : RowMatch.Statement (.ldImm x nn) := fun _ => xnn_fixed (by decide) x nn
theorem RowMatch.addImm (x : Reg) (nn : Byte) : RowMatch.Statement (.addImm x nn) := fun _ => xnn_fixed (by decide) x nn
theorem RowMatch.ldReg (x y : Reg) : RowMatch.Statement (.ldReg x y) := fun _ => xy_fixed (by decide) x y _
theorem RowMatch.or (x y : Reg) : RowMatch.Statement (.or x y) := fun _ => xy_fixed (by decide) x y _
theorem RowMatch.and (x y : Reg) : RowMatch.Statement (.and x y) := fun _ => xy_fixed (by decide) x y _
theorem RowMatch.xor (x y : Reg) : RowMatch.Statement (.xor x y) := fun _ => xy_fixed (by decide) x y _
theorem RowMatch.addReg (x y : Reg) : RowMatch.Statement (.addReg x y) := fun _ => xy_fixed (by decide) x y _
theorem RowMatch.sub (x y : Reg) : RowMatch.Statement (.sub x y) := fun _ => xy_fixed (by decide) x y _
theorem RowMatch.shr (x y : Reg) : RowMatch.Statement (.shr x y) := fun _ => xy_fixed (by decide) x y _
theorem RowMatch.subn (x y : Reg) : RowMatch.Statement (.subn x y) := fun _ => xy_fixed (by decide) x y _
theorem RowMatch.shl (x y : Reg) : RowMatch.Statement (.shl x y) := fun _ => xy_fixed (by decide) x y _
theorem RowMatch.sneReg (x y : Reg) : RowMatch.Statement (.sneReg x y) := fun _ => xy_fixed (by decide) x y _
theorem RowMatch.ldI (nnn : BitVec 12) : RowMatch.Statement (.ldI nnn) := fun _ => nnn_fixed (by decide) nnn
theorem RowMatch.jpV0 (nnn : BitVec 12) : RowMatch.Statement (.jpV0 nnn) := fun _ => nnn_fixed (by decide) nnn
theorem RowMatch.rnd (x : Reg) (nn : Byte) : RowMatch.Statement (.rnd x nn) := fun _ => xnn_fixed (by decide) x nn
theorem RowMatch.drw (x y : Reg) (n : Fin 16) : RowMatch.Statement (.drw x y n) := fun _ => xyn_fixed (by decide) x y n
theorem RowMatch.skp (x : Reg) : RowMatch.Statement (.skp x) := fun _ => x_fixed (by decide) x _
theorem RowMatch.sknp (x : Reg) : RowMatch.Statement (.sknp x) := fun _ => x_fixed (by decide) x _
theorem RowMatch.ldVxDt (x : Reg) : RowMatch.Statement (.ldVxDt x) := fun _ => x_fixed (by decide) x _
theorem RowMatch.ldVxK (x : Reg) : RowMatch.Statement (.ldVxK x) := fun _ => x_fixed (by decide) x _
theorem RowMatch.ldDtVx (x : Reg) : RowMatch.Statement (.ldDtVx x) := fun _ => x_fixed (by decide) x _
theorem RowMatch.ldStVx (x : Reg) : RowMatch.Statement (.ldStVx x) := fun _ => x_fixed (by decide) x _
theorem RowMatch.addI (x : Reg) : RowMatch.Statement (.addI x) := fun _ => x_fixed (by decide) x _
theorem RowMatch.ldF (x : Reg) : RowMatch.Statement (.ldF x) := fun _ => x_fixed (by decide) x _
theorem RowMatch.ldB (x : Reg) : RowMatch.Statement (.ldB x) := fun _ => x_fixed (by decide) x _
theorem RowMatch.stRegs (x : Reg) : RowMatch.Statement (.stRegs x) := fun _ => x_fixed (by decide) x _
theorem RowMatch.ldRegs (x : Reg) : RowMatch.Statement (.ldRegs x) := fun _ => x_fixed (by decide) x _
theorem RowMatch.undef (op : Word) : RowMatch.Statement (.undef op) := fun _ => by simp [rowBits]

end Sys2Proof.Laws
end

