-- ==== Sys2Proof/Tests/Slice0.lean ====
section
/-! SUPPORT. Tests and witnesses. The expected values of the tests are those of spec/95_test_vectors.md, whose row ids the
comments give; each runs one operation (the self-modifying one two). A `witness_` theorem shows that the hypotheses of the statement of that
name are met together, at the ends of their ranges. -/

namespace Sys2Proof.Tests

open Sys2Proof Sys2Proof.Machine

/-! ### Helpers -/

/-- The outcome of a `Cycle` on the opcode `w` placed at `PC`. -/
def cycleOn (w : Nat) (s : State) : Result := step (s.withFetchWord 16 w)

/-- The operation answers a next state with this property. -/
def good (r : Result) (p : State → Bool) : Bool :=
  match r with
  | .next t => p t
  | .fault _ => false
  | .refused _ => false

/-- The operation faults with this cause. -/
def bad (r : Result) (c : Fault) : Bool :=
  match r with
  | .next _ => false
  | .fault d => d == c
  | .refused _ => false

/-- Two cycles, the second on what the first left. -/
def andCycle (r : Result) : Result :=
  match r with
  | .next t => step t
  | .fault c => .fault c
  | .refused q => .refused q

/-- Bytes placed from `a` on. -/
def bytes (a : Nat) (bs : List Byte) (s : State) : State := { s with mem := placeBytes a bs s.mem }

/-- The host's next operation. -/
def next (op : HostOp) (s : State) : State := { s with env := { s.env with script := [op] } }

/-- The stack with these live entries. -/
def stackOf (ws : List Word) (d : Fin 17) (s : State) : State :=
  { s with stack := Vector.ofFn (fun j : Fin 16 => ws.getD j.val 0), depth := d }

/-- A cell set. -/
def cell (x : Fin 64) (y : Fin 32) (s : State) : State := s.setFb (FrameBuffer.put s.fb (x, y) true)

/-- The set cells of a row, from the left. -/
def rowOf (y : Fin 32) (s : State) : List Nat := (List.range 64).filter (fun x => s.pixelOn (Fin.ofNat 64 x) y)

/-- The script of random bytes, and of key answers. -/
def random (b : Byte) (s : State) : State := { s with env := { s.env with randomIn := [b] } }
def keys (b : Bool) (s : State) : State := { s with env := { s.env with keyIn := [b] } }

/-- The reset state with the other shift mode. -/
def vySource : State := { State.reset with cfg := { Config.standard with shiftMode := .vySource } }

abbrev z : State := State.reset

/-! ### Well-formed terms (R76, R77): one term for each check, refused -/

theorem test_wf_sys_not_cls : (Instr.sys 0x0E0).wellFormed = false := by decide

theorem test_wf_sys_not_ret : (Instr.sys 0x0EE).wellFormed = false := by decide

theorem test_wf_undef_not_a_row : (Instr.undef 0x6005).wellFormed = false := by decide

theorem test_wf_undef_not_family_0 : (Instr.undef 0x00E1).wellFormed = false := by decide

theorem test_wf_undef_not_se : (Instr.undef 0x5120).wellFormed = false := by decide

theorem test_wf_undef_not_shl : (Instr.undef 0x812E).wellFormed = false := by decide

theorem test_wf_undef_not_sne : (Instr.undef 0x9120).wellFormed = false := by decide

theorem test_wf_undef_not_skp : (Instr.undef 0xE19E).wellFormed = false := by decide

theorem test_wf_undef_not_ld : (Instr.undef 0xF165).wellFormed = false := by decide

theorem test_wf_accepts : [Instr.sys 0x0EF, .undef 0x5121, .undef 0x812F, .undef 0x9121, .undef 0xE19F, .undef 0xF1FF, .drw 15 15 15].all Instr.wellFormed = true := by decide

/-! ### Decoding: one word written out from Table 30-2 for every row, and unrecognised words -/

theorem test_decode_cls : decode 0x00E0 = .cls := by decide

theorem test_decode_ret : decode 0x00EE = .ret := by decide

theorem test_decode_sys : decode 0x0123 = .sys 0x123 := by decide

theorem test_decode_jp : decode 0x1ABC = .jp 0xABC := by decide

theorem test_decode_call : decode 0x2300 = .call 0x300 := by decide

theorem test_decode_seImm : decode 0x3233 = .seImm 2 0x33 := by decide

theorem test_decode_sneImm : decode 0x4A5B = .sneImm 0xA 0x5B := by decide

theorem test_decode_seReg : decode 0x5120 = .seReg 1 2 := by decide

theorem test_decode_ldImm : decode 0x6A55 = .ldImm 0xA 0x55 := by decide

theorem test_decode_addImm : decode 0x7302 = .addImm 3 0x02 := by decide

theorem test_decode_ldReg : decode 0x8EF0 = .ldReg 0xE 0xF := by decide

theorem test_decode_or : decode 0x8121 = .or 1 2 := by decide

theorem test_decode_and : decode 0x8122 = .and 1 2 := by decide

theorem test_decode_xor : decode 0x8123 = .xor 1 2 := by decide

theorem test_decode_addReg : decode 0x8124 = .addReg 1 2 := by decide

theorem test_decode_sub : decode 0x8125 = .sub 1 2 := by decide

theorem test_decode_shr : decode 0x8126 = .shr 1 2 := by decide

theorem test_decode_subn : decode 0x8127 = .subn 1 2 := by decide

theorem test_decode_shl : decode 0x812E = .shl 1 2 := by decide

theorem test_decode_sneReg : decode 0x9120 = .sneReg 1 2 := by decide

theorem test_decode_ldI : decode 0xA2F0 = .ldI 0x2F0 := by decide

theorem test_decode_jpV0 : decode 0xB300 = .jpV0 0x300 := by decide

theorem test_decode_rnd : decode 0xC30F = .rnd 3 0x0F := by decide

theorem test_decode_drw : decode 0xD015 = .drw 0 1 5 := by decide

theorem test_decode_skp : decode 0xE49E = .skp 4 := by decide

theorem test_decode_sknp : decode 0xE4A1 = .sknp 4 := by decide

theorem test_decode_ldVxDt : decode 0xF307 = .ldVxDt 3 := by decide

theorem test_decode_ldVxK : decode 0xF20A = .ldVxK 2 := by decide

theorem test_decode_ldDtVx : decode 0xF315 = .ldDtVx 3 := by decide

theorem test_decode_ldStVx : decode 0xF318 = .ldStVx 3 := by decide

theorem test_decode_addI : decode 0xF21E = .addI 2 := by decide

theorem test_decode_ldF : decode 0xF329 = .ldF 3 := by decide

theorem test_decode_ldB : decode 0xFA33 = .ldB 0xA := by decide

theorem test_decode_stRegs : decode 0xF355 = .stRegs 3 := by decide

theorem test_decode_ldRegs : decode 0xF265 = .ldRegs 2 := by decide

theorem test_decode_undef : decode 0x5121 = .undef 0x5121 := by decide

-- B-F8, B-F14
theorem test_decode_legacy : [0x0000, 0x00E1, 0x00FB, 0x00FF, 0x00C4].map decode =
    [.sys 0x000, .sys 0x0E1, .sys 0x0FB, .sys 0x0FF, .sys 0x0C4] := by decide

-- B-F10 to B-F13
theorem test_decode_unrecognised : [0x8128, 0x9121, 0xE19F, 0xF1FF, 0xF000, 0xF175, 0xF130].map decode =
    [.undef 0x8128, .undef 0x9121, .undef 0xE19F, .undef 0xF1FF, .undef 0xF000, .undef 0xF175, .undef 0xF130] := by decide

-- B-F1, R54
theorem test_decode_bytes : decodeBytes [0x12, 0x34, 0x56] = .ok (.jp 0x234, [0x56]) := by decide

-- R70
theorem test_decode_truncated : decodeBytes [0x12] = .error .truncated := by decide

theorem test_decode_table_word : decodeTableWord 16 0xA2F0 = some (.ldI 0x2F0) := by decide

-- R55
theorem test_encode_bytes : encodeBytes (.ldI 0x2F0) = [0xA2, 0xF0] := by decide

/-! ### Fetch and no-ops (B.1) -/

-- B-F1
theorem test_fetch_high_byte_first : good (cycleOn 0x1234 z) (fun t => t.pc == 0x234) = true := by decide

-- B-F2
theorem test_fetch_last_word : good (cycleOn 0x6007 (z.setPc 0xFFE)) (fun t => t.getV 0 == 0x07 && t.pc == 0x1000) = true := by decide

-- B-F3
theorem test_fetch_0x1000 : bad (step (z.setPc 0x1000)) .addressOutOfRange = true := by decide

-- B-F4
theorem test_fetch_0xFFF : bad (step (z.setPc 0xFFF)) .addressOutOfRange = true := by decide

-- B-F5
theorem test_fetch_odd : good (cycleOn 0x6A55 (z.setPc 0x201)) (fun t => t.getV 0xA == 0x55 && t.pc == 0x203) = true := by decide

-- B-F7
theorem test_sys : good (cycleOn 0x0123 z) (fun t => t.pc == 0x202 && t.v == z.v) = true := by decide

-- B-F9
theorem test_undef : good (cycleOn 0x5121 ((z.setV 1 7).setV 2 7)) (fun t => t.pc == 0x202) = true := by decide

-- B-F12
theorem test_undef_no_query : good (cycleOn 0xE19F (keys true z)) (fun t => t.pc == 0x202 && t.env.keyIn == [true]) = true := by decide

-- B-F15
theorem test_cycle_awaiting : good (step ((z.setMode (.awaitingKey 3)).setPc 0x202)) (fun t => t.pc == 0x202 && t.mode == .awaitingKey 3) = true := by decide

/-! ### Control flow (B.2) -/

-- B-C1
theorem test_jp : good (cycleOn 0x1ABC z) (fun t => t.pc == 0xABC) = true := by decide

-- B-C6
theorem test_jpV0 : good (cycleOn 0xB300 ((z.setV 0 0x01).setV 3 0x40)) (fun t => t.pc == 0x301) = true := by decide

-- B-C5
theorem test_jpV0_unmasked : good (cycleOn 0xBFFF (z.setV 0 0xFF)) (fun t => t.pc == 0x10FE) = true := by decide

-- B-C7
theorem test_call : good (cycleOn 0x2300 z) (fun t => t.sp == 0 && t.stack[0] == 0x202 && t.pc == 0x300) = true := by decide

-- B-C9
theorem test_call_overflow : bad (cycleOn 0x2300 (stackOf [] 16 z)) .stackOverflow = true := by decide

-- B-C12
theorem test_ret : good (cycleOn 0x00EE (stackOf [0x222, 0x333] 2 z)) (fun t => t.pc == 0x333 && t.sp == 0) = true := by decide

-- B-C11
theorem test_ret_underflow : bad (cycleOn 0x00EE z) .stackUnderflow = true := by decide

-- B-C13
theorem test_seImm : good (cycleOn 0x3233 (z.setV 2 0x33)) (fun t => t.pc == 0x204) = true := by decide

-- B-C14
theorem test_seImm_no : good (cycleOn 0x3233 (z.setV 2 0x34)) (fun t => t.pc == 0x202) = true := by decide

-- B-C16
theorem test_sneImm : good (cycleOn 0x4233 (z.setV 2 0x34)) (fun t => t.pc == 0x204) = true := by decide

-- B-C15
theorem test_sneImm_no : good (cycleOn 0x4233 (z.setV 2 0x33)) (fun t => t.pc == 0x202) = true := by decide

-- B-C17
theorem test_seReg : good (cycleOn 0x5120 ((z.setV 1 0x09).setV 2 0x09)) (fun t => t.pc == 0x204) = true := by decide

-- B-C18
theorem test_seReg_no : good (cycleOn 0x5120 ((z.setV 1 0x09).setV 2 0x0A)) (fun t => t.pc == 0x202) = true := by decide

-- B-C20
theorem test_sneReg : good (cycleOn 0x9120 ((z.setV 1 0x09).setV 2 0x0A)) (fun t => t.pc == 0x204) = true := by decide

-- B-C21
theorem test_sneReg_no : good (cycleOn 0x9120 ((z.setV 1 0x09).setV 2 0x09)) (fun t => t.pc == 0x202) = true := by decide

/-! ### Loads, arithmetic, logic (B.3, B.4) -/

-- B-A1
theorem test_ldImm : good (cycleOn 0x6F7E z) (fun t => t.getV 15 == 0x7E) = true := by decide

-- S2
theorem test_addImm : good (cycleOn 0x7302 ((z.setV 3 0xFF).setV 15 0x5A)) (fun t => t.getV 3 == 0x01 && t.getV 15 == 0x5A) = true := by decide

-- B-A5
theorem test_ldReg : good (cycleOn 0x8120 (z.setV 2 0x7E)) (fun t => t.getV 1 == 0x7E) = true := by decide

-- B-A6
theorem test_or : good (cycleOn 0x8121 (((z.setV 1 0xF0).setV 2 0x0F).setV 15 0x5A)) (fun t => t.getV 1 == 0xFF && t.getV 15 == 0x5A) = true := by decide

-- B-A7
theorem test_and : good (cycleOn 0x8122 (((z.setV 1 0xF0).setV 2 0x3C).setV 15 0x5A)) (fun t => t.getV 1 == 0x30 && t.getV 15 == 0x5A) = true := by decide

-- B-A8
theorem test_xor : good (cycleOn 0x8123 (((z.setV 1 0xF0).setV 2 0x3C).setV 15 0x5A)) (fun t => t.getV 1 == 0xCC && t.getV 15 == 0x5A) = true := by decide

-- S3
theorem test_addReg : good (cycleOn 0x8124 ((z.setV 1 0xFF).setV 2 0x01)) (fun t => t.getV 1 == 0x00 && t.getV 15 == 0x01) = true := by decide

-- B-V4
theorem test_addReg_flag_first : good (cycleOn 0x81F4 ((z.setV 1 0xF0).setV 15 0x20)) (fun t => t.getV 15 == 0x01 && t.getV 1 == 0xF1) = true := by decide

-- S4
theorem test_sub_equal : good (cycleOn 0x8125 ((z.setV 1 0x05).setV 2 0x05)) (fun t => t.getV 1 == 0x00 && t.getV 15 == 0x01) = true := by decide

-- B-V7
theorem test_sub_flag_first : good (cycleOn 0x8F15 ((z.setV 15 0x30).setV 1 0x20)) (fun t => t.getV 15 == 0xE1) = true := by decide

-- S12, B-A22
theorem test_subn_equal : good (cycleOn 0x8127 (((z.setV 1 0x05).setV 2 0x05).setV 15 0x01)) (fun t => t.getV 1 == 0x00 && t.getV 15 == 0x00) = true := by decide

-- B-V14
theorem test_subn_flag_first : good (cycleOn 0x81F7 ((z.setV 1 0x10).setV 15 0x20)) (fun t => t.getV 15 == 0x01 && t.getV 1 == 0xF1) = true := by decide

-- B-A24
theorem test_shr : good (cycleOn 0x8126 ((z.setV 1 0x05).setV 2 0xEE)) (fun t => t.getV 1 == 0x02 && t.getV 15 == 0x01 && t.getV 2 == 0xEE) = true := by decide

-- B-V22
theorem test_shr_vySource : good (cycleOn 0x81F6 ((vySource.setV 1 0xAA).setV 15 0x03)) (fun t => t.getV 15 == 0x01 && t.getV 1 == 0x00) = true := by decide

-- B-A28
theorem test_shl : good (cycleOn 0x812E ((z.setV 1 0x81).setV 2 0xEE)) (fun t => t.getV 1 == 0x02 && t.getV 15 == 0x01 && t.getV 2 == 0xEE) = true := by decide

-- B-V25
theorem test_shl_vySource : good (cycleOn 0x8F2E (vySource.setV 2 0x81)) (fun t => t.getV 15 == 0x02) = true := by decide

-- B-A32
theorem test_rnd : good (cycleOn 0xC30F (random 0xA7 z)) (fun t => t.getV 3 == 0x07) = true := by decide

-- B-A33: whatever the free byte is
theorem test_rnd_mask_zero : ∀ t, cycleOn 0xC300 z = .next t → t.getV 3 = 0 := by
  intro t h
  obtain rfl : _ = t := Host.Outcome.next.inj h
  have e : ∀ b : Byte, b &&& 0 = 0 := by decide
  exact e _

/-! ### Address register and memory (B.5) -/

-- B-M1
theorem test_ldI : good (cycleOn 0xA2F0 z) (fun t => t.i == 0x02F0) = true := by decide

-- B-M4
theorem test_addI_no_mask : good (cycleOn 0xF21E ((z.setI 0x0FFF).setV 2 0x01)) (fun t => t.i == 0x1000 && t.getV 15 == 0) = true := by decide

-- B-M5
theorem test_addI_wraps : good (cycleOn 0xF21E ((z.setI 0xFFFF).setV 2 0x01)) (fun t => t.i == 0x0000) = true := by decide

-- B-M6
theorem test_ldF : good (cycleOn 0xF329 (z.setV 3 0x0A)) (fun t => t.i == 0x0032) = true := by decide

-- B-M10
theorem test_ldF_whole_byte : good (cycleOn 0xF329 (z.setV 3 0xFF)) (fun t => t.i == 0x04FB) = true := by decide

-- S9
theorem test_ldB : good (cycleOn 0xF433 ((z.setI 0x300).setV 4 157)) (fun t => [0x300, 0x301, 0x302].map t.byteAt == [1, 5, 7]) = true := by decide

-- B-M16
theorem test_ldB_above : bad (cycleOn 0xF433 ((z.setI 0xFFE).setV 4 7)) .addressOutOfRange = true := by decide

-- B-M17
theorem test_stRegs : good (cycleOn 0xF255 ((((z.setI 0x300).setV 0 0x11).setV 1 0x22).setV 2 0x33)) (fun t => [0x300, 0x301, 0x302, 0x303].map t.byteAt == [0x11, 0x22, 0x33, 0x00] && t.i == 0x300) = true := by decide

-- B-M20
theorem test_stRegs_above : bad (cycleOn 0xFF55 (z.setI 0xFF1)) .addressOutOfRange = true := by decide

-- B-M23
theorem test_ldRegs : good (cycleOn 0xF465 (z.setI 0x000)) (fun t => t.v.toList.take 6 == [0xF0, 0x90, 0x90, 0x90, 0xF0, 0x00]) = true := by decide

-- B-M25
theorem test_ldRegs_above : bad (cycleOn 0xF165 (z.setI 0xFFF)) .addressOutOfRange = true := by decide

-- B-M26
theorem test_self_modifying : good (andCycle (cycleOn 0xF155 (((z.setI 0x202).setV 0 0x6A).setV 1 0x55)))
    (fun t => t.getV 0xA == 0x55 && t.pc == 0x204) = true := by decide

/-! ### Display (B.6) -/

-- B-D1
theorem test_cls : good (cycleOn 0x00E0 (cell 63 31 (cell 0 0 z)))
    (fun t => rowOf 0 t == [] && rowOf 31 t == [] && t.report == .frameUpdated) = true := by decide

-- B-D3
theorem test_drw_rows : good (cycleOn 0xD012 (((bytes 0x300 [0x3C, 0xC3] (z.setI 0x300)).setV 0 4).setV 1 2))
    (fun t => rowOf 2 t == [6, 7, 8, 9] && rowOf 3 t == [4, 5, 10, 11] && t.getV 15 == 0) = true := by decide

-- P4, cycle 7: both edges wrap, the second draw erases and collides
theorem test_drw_wraps_and_erases : good (cycleOn 0xD012 (cell 63 31 (cell 0 31 (cell 63 0 (((bytes 0x300 [0xC0, 0x80] (z.setI 0x300)).setV 0 63).setV 1 31)))))
    (fun t => rowOf 0 t == [] && rowOf 31 t == [] && t.getV 15 == 1 && t.report == .frameUpdated) = true := by decide

/-! ### Keys and timers (B.7) -/

-- B-K1
theorem test_skp : good (cycleOn 0xE49E (keys true (z.setV 4 0x07))) (fun t => t.pc == 0x204) = true := by decide

-- B-K2
theorem test_skp_up : good (cycleOn 0xE49E (keys false (z.setV 4 0x07))) (fun t => t.pc == 0x202) = true := by decide

-- B-K3
theorem test_sknp : good (cycleOn 0xE4A1 (keys true (z.setV 4 0x07))) (fun t => t.pc == 0x202) = true := by decide

-- B-K4
theorem test_sknp_up : good (cycleOn 0xE4A1 (keys false (z.setV 4 0x07))) (fun t => t.pc == 0x204) = true := by decide

-- B-K6
theorem test_ldVxK : good (cycleOn 0xF20A z) (fun t => t.mode == .awaitingKey 2 && t.pc == 0x202 && t.v == z.v) = true := by decide

-- B-K11
theorem test_ldVxDt : good (cycleOn 0xF307 (z.setDt 0x2A)) (fun t => t.getV 3 == 0x2A && t.dt == 0x2A) = true := by decide

-- B-K12
theorem test_ldDtVx : good (cycleOn 0xF315 (z.setV 3 0x3C)) (fun t => t.dt == 0x3C) = true := by decide

-- B-K13
theorem test_ldStVx : good (cycleOn 0xF318 (z.setV 3 0x3C)) (fun t => t.st == 0x3C && t.toneOn) = true := by decide

-- B-K7
theorem test_keyEvent : good (step (next (.keyEvent 0xA) (z.setMode (.awaitingKey 2)))) (fun t => t.getV 2 == 0x0A && t.mode == .running) = true := by decide

-- B-K9
theorem test_keyEvent_running : good (step (next (.keyEvent 0xA) (z.setV 2 0x33))) (fun t => t.v == (z.setV 2 0x33).v && t.mode == .running) = true := by decide

-- B-K10
theorem test_tick_awaiting : good (step (next .tickTimers ((z.setMode (.awaitingKey 2)).setDt 5))) (fun t => t.dt == 4 && t.mode == .awaitingKey 2) = true := by decide

-- B-K15
theorem test_tick_zero_stays : good (step (next .tickTimers (z.setDt 2))) (fun t => t.dt == 1 && t.st == 0) = true := by decide

-- B-K16
theorem test_tick_sound : good (step (next .tickTimers (z.setSt 1))) (fun t => t.dt == 0 && t.st == 0) = true := by decide

/-! ### Reset and load (B.8) -/

-- B-R1
theorem test_reset_memory : [0x000, 0x001, 0x004, 0x04B, 0x04C, 0x04F, 0x050, 0xFFF].map z.byteAt =
    [0xF0, 0x90, 0xF0, 0xF0, 0x80, 0x80, 0x00, 0x00] := by decide

-- B-R2
theorem test_load : good (step (next (.loadProgram [0x60, 0x05, 0x70, 0x03]) z)) (fun t => [0x200, 0x201, 0x202, 0x203, 0x204].map t.byteAt == [0x60, 0x05, 0x70, 0x03, 0x00] && t.pc == 0x200) = true := by decide

-- B-R5
theorem test_load_empty : good (step (next (.loadProgram []) z)) (fun t => t.mem == z.mem && t.report == .completed) = true := by decide

-- B-R4
theorem test_load_too_large : good (step (next (.loadProgram (List.replicate 3585 1)) z))
    (fun t => t.mem == [] && t.mode == .running && t.report == .failed .programTooLarge) = true := by
  have h : ∀ bs : List Byte, progCapacity < bs.length → step (next (.loadProgram bs) z) =
      .next ((next (.loadProgram bs) z).begin.setReport (.failed .programTooLarge)) := fun bs hb =>
    congrArg Host.Outcome.next (hostLoadProgram_tooLarge (fun c h => by cases h) hb)
  rw [h _ (by rw [List.length_replicate]; decide)]
  rfl

-- B-R6
theorem test_reset_after_fault : good (step (next .reset ((z.setV 3 7).enterFaulted .stackOverflow)))
    (fun t => t.mode == .running && t.v == z.v && t.pc == 0x200) = true := by decide

-- P5 and R95
theorem test_cycle_after_fault : bad (step (z.enterFaulted .stackOverflow)) .stackOverflow = true := by decide

-- Table 60-1
theorem test_fault_codes : [Fault.addressOutOfRange, .stackOverflow, .stackUnderflow, .programTooLarge].map Fault.code = [1, 2, 3, 4] := by decide

/-! ### Witnesses: the hypotheses of the statements, met together -/

/-- A machine about to fetch `w` at `PC`. -/
def about (w : Nat) (s : State) : State := s.withFetchWord 16 w

theorem witness_Encodes : ∀ r ∈ rows, r.value &&& r.mask = r.value := by decide

theorem witness_DecodeOfEncode : (Instr.sys 0x0EF).wellFormed = true ∧ (Instr.sys 0x000).wellFormed = true ∧
    (Instr.undef 0xFFFF).wellFormed = true ∧ (Instr.drw 15 15 15).wellFormed = true := by decide

theorem witness_FieldsAreTheBits : 3 < 4 ∧ 7 < 8 ∧ 11 < 12 := by decide

theorem witness_StepRunsTheDecoded :
    (about 0x6007 z).Fetches 0x6007 ∧ (about 0x6007 (z.setPc 0xFFE)).Fetches 0x6007 ∧
      decode 0x6007 = .ldImm 0 7 ∧ (Instr.ldImm 0 7).wellFormed = true := by
  unfold State.Fetches; decide

theorem witness_FetchAboveTheTopFaults :
    (z.setPc 0xFFF).nextOp = .cycle ∧ (z.setPc 0xFFF).mode = .running ∧ 0xFFE < (z.setPc 0xFFF).pc.toNat ∧
      (z.setPc 0xFFE).nextOp = .cycle ∧ (z.setPc 0xFFE).mode = .running ∧ (z.setPc 0xFFE).pc.toNat ≤ 0xFFE := by
  decide

theorem witness_IdleCycles :
    (z.setMode (.awaitingKey 3)).nextOp = .cycle ∧ (z.setMode (.awaitingKey 3)).mode = .awaitingKey 3 ∧
      (z.enterFaulted .stackOverflow).nextOp = .cycle ∧
      (z.enterFaulted .stackOverflow).mode = .faulted .stackOverflow := by decide

theorem witness_PcAdvancesByTwo :
    (about 0x6007 (z.setPc 0xFFE)).Fetches 0x6007 ∧
      Part.pc ∉ writes (decode 0x6007) (about 0x6007 (z.setPc 0xFFE)) ∧
      ∃ t, step (about 0x6007 (z.setPc 0xFFE)) = .next t := by
  refine ⟨by unfold State.Fetches; decide, by decide, _, rfl⟩

theorem witness_NoOpsChangeNothing :
    (about 0x00E1 z).Fetches 0x00E1 ∧ ((0x00E1 : Word) &&& 0xF000 = 0x0000 ∧ (0x00E1 : Word) ≠ 0x00E0 ∧ (0x00E1 : Word) ≠ 0x00EE) ∧
      (about 0xF1FF z).Fetches 0xF1FF ∧ unrecognised 0xF1FF = true := by
  unfold State.Fetches; decide

theorem witness_CallPushes :
    z.depth.val < 16 ∧ (stackOf [] 15 z).depth.val < 16 ∧ (stackOf [] 16 z).sp = 15 := by decide

theorem witness_ReturnPops :
    (stackOf [0x456] 1 z).depth.val = (0 : Fin 16).val + 1 ∧ (stackOf [] 16 z).depth.val = (15 : Fin 16).val + 1 ∧
      z.sp = -1 := by decide

theorem witness_CallThenReturn : ∃ t u : State, exec (.call 0x300) (stackOf [0x456] 15 z) = .next t ∧
    u.depth = t.depth ∧ u.stack = t.stack := ⟨_, _, rfl, rfl, rfl⟩

theorem witness_Flag_not_destination : (1 : Reg) ≠ 15 := by decide

theorem witness_RandomByteUnderMask : (random 0xA7 z).env.randomIn = 0xA7 :: [] := rfl

theorem witness_BcdStoresThreeDigits : (z.setI 0xFFD).ea 2 ≤ 0xFFF ∧ 0xFFF < (z.setI 0xFFE).ea 2 := by decide

theorem witness_StoreRegisters :
    (z.setI 0xFF0).ea (15 : Reg).val ≤ 0xFFF ∧ (z.setI 0xFFF).ea (0 : Reg).val ≤ 0xFFF ∧
      0xFFF < (z.setI 0xFF1).ea (15 : Reg).val ∧ 0xFFF < (z.setI 0x1000).ea (0 : Reg).val := by decide

theorem witness_LoadRegisters :
    (z.setI 0xFF0).ea (15 : Reg).val ≤ 0xFFF ∧ 0xFFF < (z.setI 0xFFF).ea (1 : Reg).val := by decide

theorem witness_StoreThenLoadReturns : ∃ t, exec (.stRegs 3) (z.setI 0xFFC) = .next t ∧
    (t.setV 2 9).i = t.i ∧ (t.setV 2 9).mem = t.mem := ⟨_, rfl, rfl, rfl⟩

theorem witness_StoredWordIsExecuted : ∃ t, exec (.stRegs 1) ((z.setI 0x202).setPc 0x202) = .next t ∧
    1 ≤ (1 : Reg).val ∧ ((z.setI 0x202).setPc 0x202).pc = ((z.setI 0x202).setPc 0x202).i ∧
    ((z.setI 0x202).setPc 0x202).mode = .running ∧ ((z.setI 0x202).setPc 0x202).nextOp = .cycle :=
  ⟨_, rfl, by decide, rfl, rfl, rfl⟩

theorem witness_ReadAfterWrite : (0xFFF : Nat) ≤ 0xFFF ∧ 0xFFF < (0x1000 : Nat) := by decide

theorem witness_DrawFlipsTheSprite :
    (0 : Fin 16).val = 0 ∧ (z.setI 0xFFF).ea ((1 : Fin 16).val - 1) ≤ 0xFFF ∧
      (z.setI 0xFF1).ea ((15 : Fin 16).val - 1) ≤ 0xFFF ∧
      1 ≤ (2 : Fin 16).val ∧ 0xFFF < (z.setI 0xFFF).ea ((2 : Fin 16).val - 1) := by decide

theorem witness_SpriteProperties_twice : ∃ t, exec (.drw 0 1 1) (bytes 0x300 [0x80] (z.setI 0x300)) = .next t ∧
    ∃ u : State, u.fb = t.fb ∧ u.i = (bytes 0x300 [0x80] (z.setI 0x300)).i ∧
      u.mem = (bytes 0x300 [0x80] (z.setI 0x300)).mem ∧
      u.getV 0 = (bytes 0x300 [0x80] (z.setI 0x300)).getV 0 ∧ u.getV 1 = (bytes 0x300 [0x80] (z.setI 0x300)).getV 1 :=
  ⟨_, rfl, _, rfl, rfl, rfl, rfl, rfl⟩

theorem witness_SpriteProperties_clear : ∀ p, FrameBuffer.get (bytes 0x300 [0x80] (z.setI 0x300)).fb p = false :=
  fun p => FrameBuffer.get_blank p

/-- A full row at the right edge of row 0 of an empty grid. -/
def edge : State := (bytes 0x300 [0xFF] (z.setI 0x300)).setV 0 63

theorem witness_SpriteProperties_edge : edge.i.toNat ≤ 0xFFF ∧ edge.byteAt edge.i.toNat = 0xFF ∧
    edge.getV 0 = 63 ∧ edge.getV 1 = 0 ∧ ∀ p, FrameBuffer.get edge.fb p = false :=
  ⟨by decide, by decide, by decide, by decide, fun p => FrameBuffer.get_blank p⟩

theorem witness_KeySkips : (keys true z).env.keyIn = true :: [] := rfl

theorem witness_KeyEventEndsTheWait :
    (next (.keyEvent 15) (z.setMode (.awaitingKey 15))).nextOp = .keyEvent 15 ∧
      (next (.keyEvent 15) (z.setMode (.awaitingKey 15))).mode = .awaitingKey 15 ∧
      (next (.keyEvent 0) z).nextOp = .keyEvent 0 ∧ (∀ r, (next (.keyEvent 0) z).mode ≠ .awaitingKey r) ∧
      (next (.keyEvent 0) (z.enterFaulted .stackOverflow)).nextOp = .keyEvent 0 ∧
      ∀ r, (next (.keyEvent 0) (z.enterFaulted .stackOverflow)).mode ≠ .awaitingKey r := by decide

theorem witness_TickCountsDown :
    (next .tickTimers (z.setDt 2)).nextOp = .tickTimers ∧ (∀ c, (next .tickTimers (z.setDt 2)).mode ≠ .faulted c) ∧
      (next .tickTimers (z.setMode (.awaitingKey 2))).nextOp = .tickTimers ∧
      (∀ c, (next .tickTimers (z.setMode (.awaitingKey 2))).mode ≠ .faulted c) ∧
      (next .tickTimers (z.enterFaulted .stackOverflow)).nextOp = .tickTimers ∧
      (next .tickTimers (z.enterFaulted .stackOverflow)).mode = .faulted .stackOverflow :=
  ⟨rfl, fun _ h => (by cases h), rfl, fun _ h => (by cases h), rfl, rfl⟩

theorem witness_CyclesNeverTick_delay : (about 0xF315 (z.setV 3 5)).nextOp = .cycle ∧
    ∃ t, step (about 0xF315 (z.setV 3 5)) = .next t ∧ t.dt ≠ (about 0xF315 (z.setV 3 5)).dt :=
  ⟨rfl, _, rfl, by decide⟩

theorem witness_CyclesNeverTick_sound : (about 0xF318 (z.setV 3 5)).nextOp = .cycle ∧
    ∃ t, step (about 0xF318 (z.setV 3 5)) = .next t ∧ t.st ≠ (about 0xF318 (z.setV 3 5)).st :=
  ⟨rfl, _, rfl, by decide⟩

theorem witness_ResetOperation : (next .reset (z.enterFaulted .stackOverflow)).nextOp = .reset := rfl

theorem witness_ResetState : 0x050 ≤ (0x050 : Nat) := by decide

theorem witness_LoadProgram_fits : ∃ s : State, ∃ bs : List Byte, s.nextOp = .loadProgram bs ∧
    (∀ c, s.mode ≠ .faulted c) ∧ bs.length ≤ 3584 ∧ 3583 < bs.length :=
  ⟨next (.loadProgram (List.replicate 3584 1)) z, List.replicate 3584 1, rfl, fun _ h => (by cases h),
    by rw [List.length_replicate], by rw [List.length_replicate]; decide⟩

theorem witness_LoadProgram_tooLarge : ∃ s : State, ∃ bs : List Byte, s.nextOp = .loadProgram bs ∧
    (∀ c, s.mode ≠ .faulted c) ∧ 3584 < bs.length :=
  ⟨next (.loadProgram (List.replicate 3585 1)) z, List.replicate 3585 1, rfl, fun _ h => (by cases h),
    by rw [List.length_replicate]; decide⟩

theorem witness_FaultedMachineOnlyResets :
    (z.enterFaulted .stackUnderflow).mode = .faulted .stackUnderflow ∧ (z.enterFaulted .stackUnderflow).nextOp = .cycle ∧
      (next .reset (z.enterFaulted .stackUnderflow)).mode = .faulted .stackUnderflow ∧
      (next .reset (z.enterFaulted .stackUnderflow)).nextOp = .reset ∧
      (next .tickTimers (z.enterFaulted .stackUnderflow)).mode = .faulted .stackUnderflow ∧
      (next .tickTimers (z.enterFaulted .stackUnderflow)).nextOp ≠ .cycle ∧
      (next .tickTimers (z.enterFaulted .stackUnderflow)).nextOp ≠ .reset := by decide

theorem witness_StepKeepsInvariant : z.Inv ∧ ∃ t, step z = .next t :=
  ⟨⟨Memory.wf_nil, Memory.wf_nil, by decide, fun j hj => absurd hj (Nat.not_lt_zero _)⟩, _, rfl⟩

theorem witness_EveryInstructionFrame : ∃ t, exec (.stRegs 15) (z.setI 0xFF0) = .next t := ⟨_, rfl⟩

theorem witness_InstructionFaultsExactly :
    faultOf .ret z = some .stackUnderflow ∧ faultOf (.call 0x300) (stackOf [] 16 z) = some .stackOverflow ∧
      faultOf (.drw 0 1 2) (z.setI 0xFFF) = some .addressOutOfRange ∧ faultOf (.drw 0 1 0) (z.setI 0xFFFF) = none ∧
      faultOf (.drw 0 1 1) (z.setI 0xFFF) = none ∧ faultOf (.ldB 0) (z.setI 0xFFE) = some .addressOutOfRange ∧
      faultOf (.ldB 0) (z.setI 0xFFD) = none ∧ faultOf (.stRegs 15) (z.setI 0xFF1) = some .addressOutOfRange ∧
      faultOf (.ldRegs 15) (z.setI 0xFF0) = none := by decide

theorem witness_StepFaultsExactly : (about 0x00EE z).nextOp = .cycle ∧ (about 0x00EE z).Fetches 0x00EE ∧
    faultOf (decode 0x00EE) (about 0x00EE z) = some .stackUnderflow := by
  unfold State.Fetches; decide

theorem witness_StepFaultsExactly_fetch : (z.setPc 0xFFF).nextOp = .cycle ∧ (z.setPc 0xFFF).mode = .running ∧
    0xFFE < (z.setPc 0xFFF).pc.toNat := by decide

theorem witness_StepFaultsExactly_again : (z.enterFaulted .stackOverflow).nextOp = .cycle ∧
    (z.enterFaulted .stackOverflow).mode = .faulted .stackOverflow := by decide

theorem witness_FrameUpdatedExactly : ∃ t u, step (about 0x00E0 z) = .next t ∧ t.report = .frameUpdated ∧
    step (about 0x6007 z) = .next u ∧ u.report ≠ .frameUpdated := ⟨_, _, rfl, rfl, rfl, by decide⟩

theorem witness_ConfigurationAndFaultStay :
    ∃ t u, step (next .tickTimers (z.enterFaulted .stackOverflow)) = .next t ∧ t.mode = .faulted .stackOverflow ∧
      step (next .reset (z.enterFaulted .stackOverflow)) = .next u ∧ u.mode = .running :=
  ⟨_, _, rfl, rfl, rfl, rfl⟩

theorem witness_SelfJumpIsIdle : (about 0x1200 z).AtSelfJump ∧ (about 0x1200 z).nextOp = .cycle := by
  unfold State.AtSelfJump; decide

theorem witness_OneQueryAtMost : ∃ t, exec (.skp 4) z = .next t ∧ ¬ keeps .answers z t :=
  ⟨_, rfl, fun h => absurd h.2.2 (by decide)⟩

end Sys2Proof.Tests
end

section
/-! The fields of an opcode (R6, R71) bit by bit: inside a field, the opcode's own bit; above it, none. -/

namespace Sys2Proof

/-- Dividing by `2 ^ lo` and reducing modulo `2 ^ width` takes the slice of `width` bits that begins at bit `lo`. -/
theorem testBit_slice (op : Word) (lo width k : Nat) :
    (op.toNat / 2 ^ lo % 2 ^ width).testBit k = (decide (k < width) && op.getLsbD (lo + k)) := by
  rw [Nat.testBit_mod_two_pow, Nat.testBit_div_two_pow, BitVec.testBit_toNat, Nat.add_comm]

theorem testBit_fieldX (op : Word) (k : Nat) :
    (fieldX op).val.testBit k = (decide (k < 4) && op.getLsbD (8 + k)) :=
  testBit_slice op 8 4 k

theorem testBit_fieldY (op : Word) (k : Nat) :
    (fieldY op).val.testBit k = (decide (k < 4) && op.getLsbD (4 + k)) :=
  testBit_slice op 4 4 k

theorem testBit_fieldN (op : Word) (k : Nat) :
    (fieldN op).val.testBit k = (decide (k < 4) && op.getLsbD k) :=
  Nat.testBit_mod_two_pow op.toNat 4 k

theorem getLsbD_fieldNN (op : Word) (k : Nat) :
    (fieldNN op).getLsbD k = (decide (k < 8) && op.getLsbD k) :=
  BitVec.getLsbD_ofNat 8 op.toNat k

theorem getLsbD_fieldNNN (op : Word) (k : Nat) :
    (fieldNNN op).getLsbD k = (decide (k < 12) && op.getLsbD k) :=
  BitVec.getLsbD_ofNat 12 op.toNat k

/-- Settles O5: each field's bits are a slice of the opcode's, read below the field's width. -/
theorem fieldsAreTheBits : Obligations.FieldsAreTheBits := by
  intro op k
  refine ⟨fun hk => ?_, fun hk => ?_, fun hk => ?_, fun hk => ?_, fun hk => ?_⟩
  · rw [testBit_fieldX, decide_eq_true hk, Bool.true_and]
  · rw [testBit_fieldY, decide_eq_true hk, Bool.true_and]
  · rw [testBit_fieldN, decide_eq_true hk, Bool.true_and]
  · rw [getLsbD_fieldNN, decide_eq_true hk, Bool.true_and]
  · rw [getLsbD_fieldNNN, decide_eq_true hk, Bool.true_and]

end Sys2Proof
end

section
/-! Memory accesses of the machine (R52, R53): what a state reads after a byte is placed in its memory. -/

namespace Sys2Proof

open Machine

/-- The bytes of a state after one write (R53, R57). -/
theorem byteAt_store (s : State) (a k : Nat) (b : Byte) :
    State.byteAt { s with mem := Memory.store a b s.mem } k = if k = a then b else s.byteAt k :=
  Memory.lookup_store s.mem a k b

/-- An access sees nothing of the state but the byte at its address. -/
theorem memRead_congr {s t : State} {k : Nat} (h : t.byteAt k = s.byteAt k) : memRead k t = memRead k s := by
  unfold memRead
  rw [h]

/-- The frame of an operation that replaces the memory alone and keeps every byte whose address is not listed. -/
theorem onlyChanges_mem {ps : List Part} (s : State) (m : Memory)
    (h : ∀ k, Part.mem k ∉ ps → Memory.lookup m k = s.byteAt k) : OnlyChanges ps s { s with mem := m } := by
  intro p hp
  cases p with
  | mem k => exact h k hp
  | answers => exact ⟨rfl, rfl, rfl⟩
  | _ => rfl

/-- The frame of one write (R53): the byte at its address. -/
theorem onlyChanges_store (s : State) (a : Nat) (b : Byte) :
    OnlyChanges [.mem a] s { s with mem := Memory.store a b s.mem } := by
  refine onlyChanges_mem s _ fun k hk => ?_
  have hne : k ≠ a := fun e => hk (e ▸ List.mem_singleton_self _)
  rw [Memory.lookup_store, if_neg hne]
  rfl

/-- Settles O32: up to `0xFFF` by the law of a read after a write, above it by the bounds check alone. -/
theorem readAfterWrite : Obligations.ReadAfterWrite := by
  refine ⟨fun s a b ha => ?_, fun s a b ha => ⟨memRead_error s ha, memWrite_error b s ha⟩⟩
  have hsize : a < memSize := Nat.lt_succ_of_le ha
  refine ⟨memRead_ok s hsize, _, memWrite_ok b s hsize, ?_, fun k hk => ?_, onlyChanges_store s a b⟩
  · rw [memRead_ok _ hsize, byteAt_store, if_pos rfl]
  · exact memRead_congr (by rw [byteAt_store, if_neg hk])

end Sys2Proof
end

section
/-! Rows of Table 30-2 one by one (R74, R75): what the words with a row's fixed bits decode to. -/

namespace Sys2Proof

open Machine Laws

/-- The words of a row whose fixed bits are the family nibble. -/
theorem encodes_of_family {v : Word} {build : Word → Instr}
    (h : ∀ op : Word, op.toNat / 4096 = v.toNat / 4096 → decodeByFamily op = build op) : Encodes 0xF000 v build := by
  intro op hop
  rw [decode_eq]
  apply h
  rw [← hop, toNat_mask_family, Nat.mul_div_cancel _ (by decide)]

/-- The words of a row whose fixed bits are the family nibble and the last one. -/
theorem encodes_of_family_last {v : Word} {build : Word → Instr}
    (h : ∀ op : Word, op.toNat / 4096 = v.toNat / 4096 → op.toNat % 16 = v.toNat % 4096 →
      decodeByFamily op = build op) : Encodes 0xF00F v build := by
  intro op hop
  obtain ⟨hfamily, hlast⟩ := of_decide_eq_true ((selects_family_last op v).symm.trans (beq_iff_eq.2 hop))
  rw [decode_eq]
  exact h op hfamily hlast

/-- A row without operands has one word. -/
theorem encodes_of_word {v : Word} {build : Word → Instr} (h : decode v = build v) : Encodes 0xFFFF v build := by
  intro op hop
  have hv : op = v := BitVec.eq_of_toNat_eq (by rw [← toNat_mask_all, hop])
  rw [hv, h]

end Sys2Proof
end

section
/-! Frames: how they are composed, and the frames of the program counter and of the return stack. -/

namespace Sys2Proof

open Machine

theorem keeps_trans {p : Part} {s t u : State} (hst : keeps p s t) (htu : keeps p t u) : keeps p s u := by
  cases p with
  | answers =>
    obtain ⟨hrandom, hkey, hdraws⟩ := hst
    obtain ⟨hrandom', hkey', hdraws'⟩ := htu
    exact ⟨hrandom'.trans hrandom, hkey'.trans hkey, hdraws'.trans hdraws⟩
  | _ => exact Eq.trans htu hst

theorem onlyChanges_mono {ps qs : List Part} {s t : State} (hsub : ps ⊆ qs) (h : OnlyChanges ps s t) :
    OnlyChanges qs s t :=
  fun p hp => h p fun hmem => hp (hsub hmem)

/-- Two updates in a row change at most what each of them may. -/
theorem onlyChanges_trans {ps : List Part} {s t u : State} (hst : OnlyChanges ps s t) (htu : OnlyChanges ps t u) :
    OnlyChanges ps s u :=
  fun p hp => keeps_trans (hst p hp) (htu p hp)

theorem onlyChanges_setPc (s : State) (w : Word) : OnlyChanges [.pc] s (s.setPc w) := by
  intro p hp
  cases p with
  | pc => exact absurd (List.mem_singleton_self _) hp
  | answers => exact ⟨rfl, rfl, rfl⟩
  | _ => rfl

theorem onlyChanges_skipIf (s : State) (c : Bool) : OnlyChanges [.pc] s (s.skipIf c) :=
  onlyChanges_setPc s _

/-- The frame of a change of the depth alone. -/
theorem onlyChanges_depth (s : State) (d : Fin 17) : OnlyChanges [.sp] s { s with depth := d } := by
  intro p hp
  cases p with
  | sp => exact absurd (List.mem_singleton_self _) hp
  | answers => exact ⟨rfl, rfl, rfl⟩
  | _ => rfl

/-- The frame of a write to one stack entry. -/
theorem onlyChanges_stack_set (s : State) (j : Fin 16) (w : Word) :
    OnlyChanges [.entry j] s { s with stack := s.stack.set j.val w } := by
  intro p hp
  cases p with
  | entry k =>
    have hne : j.val ≠ k.val := fun e => hp (Fin.ext e ▸ List.mem_singleton_self _)
    exact Vector.getElem_set_ne j.isLt k.isLt hne
  | answers => exact ⟨rfl, rfl, rfl⟩
  | _ => rfl

end Sys2Proof
end

section
/-! Jumps and skips (R102, R104 to R108): the program counter they leave. -/

namespace Sys2Proof

open Machine

theorem toNat_addr12 (nnn : BitVec 12) : (addr12 nnn).toNat = nnn.toNat :=
  BitVec.toNat_setWidth_of_le (by decide)

theorem toNat_zext16 (b : Byte) : (zext16 b).toNat = b.toNat :=
  BitVec.toNat_setWidth_of_le (by decide)

/-- A 12-bit address plus a byte is at most `0x10FE`: the 16-bit sum does not wrap (R108). -/
theorem toNat_addr12_add_zext16 (nnn : BitVec 12) (b : Byte) :
    (addr12 nnn + zext16 b).toNat = nnn.toNat + b.toNat := by
  have hsum : nnn.toNat + b.toNat < 2 ^ 16 := by
    have := nnn.isLt
    have := b.isLt
    omega
  rw [BitVec.toNat_add, toNat_addr12, toNat_zext16, Nat.mod_eq_of_lt hsum]

theorem skipIf_beq_pc (s : State) (a b : Byte) :
    (s.skipIf (a == b)).pc = if a = b then s.pc + 2 else s.pc := by
  by_cases h : a = b <;> simp [h]

theorem skipIf_bne_pc (s : State) (a b : Byte) :
    (s.skipIf (a != b)).pc = if a = b then s.pc else s.pc + 2 := by
  by_cases h : a = b <;> simp [h]

/-- Settles O12: both jumps set `PC` alone, and `NNN + V[0]` fits in 16 bits. -/
theorem jumpsSetThePc : Obligations.JumpsSetThePc := by
  refine ⟨encodes_of_family fun op hf => ?_, encodes_of_family fun op hf => ?_, fun s nnn => ?_, fun s nnn => ?_⟩
  · simp [Laws.decodeByFamily, hf]
  · simp [Laws.decodeByFamily, hf]
  · exact ⟨_, rfl, toNat_addr12 nnn, onlyChanges_setPc s _⟩
  · exact ⟨_, rfl, toNat_addr12_add_zext16 nnn _, onlyChanges_setPc s _⟩

/-- Settles O13: each skip is a `skipIf` on an equality of bytes or on its negation. -/
theorem registerSkips : Obligations.RegisterSkips := by
  refine ⟨encodes_of_family fun op hf => ?_, encodes_of_family fun op hf => ?_,
    encodes_of_family_last fun op hf hn => ?_, encodes_of_family_last fun op hf hn => ?_,
    fun s x nn => ?_, fun s x nn => ?_, fun s x y => ?_, fun s x y => ?_⟩
  · simp [Laws.decodeByFamily, hf]
  · simp [Laws.decodeByFamily, hf]
  · simp [Laws.decodeByFamily, hf, hn]
  · simp [Laws.decodeByFamily, hf, hn]
  · exact ⟨_, rfl, skipIf_beq_pc s _ _, onlyChanges_skipIf s _⟩
  · exact ⟨_, rfl, skipIf_bne_pc s _ _, onlyChanges_skipIf s _⟩
  · exact ⟨_, rfl, skipIf_beq_pc s _ _, onlyChanges_skipIf s _⟩
  · exact ⟨_, rfl, skipIf_bne_pc s _ _, onlyChanges_skipIf s _⟩

end Sys2Proof
end

section
/-! Call and return (R101, R103): the states a push and a pop leave, and the meanings of `CALL` and `RET` over them. -/

namespace Sys2Proof.Machine

/-- The state a push of `w` leaves. -/
def State.pushed (s : State) (w : Word) (h : s.depth.val < 16) : State :=
  { s with stack := s.stack.set s.depth.val w, depth := ⟨s.depth.val + 1, by omega⟩ }

theorem push_eq_pushed (w : Word) (s : State) (k : State → Result) (h : s.depth.val < 16) :
    push w s k = k (s.pushed w h) :=
  push_ok w s k h

theorem sp_pushed (s : State) (w : Word) (h : s.depth.val < 16) : (s.pushed w h).sp = s.sp + 1 := by
  simp only [State.pushed, State.sp]
  omega

theorem top_pushed (s : State) (w : Word) (h : s.depth.val < 16) : (s.pushed w h).stack[s.depth.val] = w :=
  Vector.getElem_set_self h

theorem onlyChanges_pushed (s : State) (w : Word) (h : s.depth.val < 16) :
    OnlyChanges [.sp, .entry ⟨s.depth.val, h⟩] s (s.pushed w h) := by
  refine onlyChanges_trans (onlyChanges_mono ?_ (onlyChanges_stack_set s ⟨s.depth.val, h⟩ w))
    (onlyChanges_mono ?_ (onlyChanges_depth _ _))
  · simp
  · simp

/-- The state a pop leaves: one entry fewer, none cleared (R27). -/
def State.popped (s : State) : State :=
  { s with depth := ⟨s.depth.val - 1, by omega⟩ }

/-- A pop where the top entry is at index `j`. -/
theorem pop_eq_popped (s : State) (k : Word → State → Result) (j : Fin 16) (h : s.depth.val = j.val + 1) :
    pop s k = k s.stack[j.val] s.popped := by
  have hj : s.depth.val - 1 = j.val := by omega
  rw [pop_ok s k (by omega)]
  simp only [hj, State.popped]

theorem sp_popped (s : State) (h : s.depth.val ≠ 0) : s.popped.sp = s.sp - 1 := by
  simp only [State.popped, State.sp]
  omega

theorem onlyChanges_popped (s : State) : OnlyChanges [.sp] s s.popped := onlyChanges_depth s _

/-- `CALL` on a stack with room. -/
theorem execCall_ok (s : State) (nnn : BitVec 12) (h : s.depth.val < 16) :
    execCall nnn s = .next ((s.pushed s.pc h).setPc (addr12 nnn)) :=
  push_eq_pushed _ _ _ h

theorem execCall_full (s : State) (nnn : BitVec 12) (h : s.depth.val = 16) :
    execCall nnn s = .fault .stackOverflow :=
  push_full _ _ _ h

/-- `RET` where the top entry is at index `j`. -/
theorem execRet_ok (s : State) (j : Fin 16) (h : s.depth.val = j.val + 1) :
    execRet s = .next (s.popped.setPc s.stack[j.val]) :=
  pop_eq_popped s _ j h

theorem execRet_empty (s : State) (h : s.depth.val = 0) : execRet s = .fault .stackUnderflow :=
  pop_empty _ _ h

end Sys2Proof.Machine

namespace Sys2Proof

open Machine

/-- Settles O14: with room a push and then a write to `PC`; at depth 16 the push faults. -/
theorem callPushes : Obligations.CallPushes := by
  refine ⟨encodes_of_family fun op hf => ?_, fun s nnn h => ?_, fun s nnn hsp => ?_⟩
  · simp [Laws.decodeByFamily, hf]
  · refine ⟨_, execCall_ok s nnn h, toNat_addr12 nnn, sp_pushed s s.pc h, top_pushed s s.pc h, ?_⟩
    exact onlyChanges_trans (onlyChanges_mono (by simp) (onlyChanges_pushed s s.pc h))
      (onlyChanges_mono (by simp) (onlyChanges_setPc _ _))
  · have hfull : s.depth.val = 16 := by
      unfold State.sp at hsp
      omega
    exact execCall_full s nnn hfull

/-- Settles O15: the pop hands over the top entry and lowers the depth alone; at depth 0 it faults. -/
theorem returnPops : Obligations.ReturnPops := by
  refine ⟨encodes_of_word (by decide), fun s j h => ?_, fun s hsp => ?_⟩
  · refine ⟨_, execRet_ok s j h, rfl, sp_popped s (by omega), ?_⟩
    exact onlyChanges_trans (onlyChanges_mono (by simp) (onlyChanges_popped s))
      (onlyChanges_mono (by simp) (onlyChanges_setPc _ _))
  · have hempty : s.depth.val = 0 := by
      unfold State.sp at hsp
      omega
    exact execRet_empty s hempty

end Sys2Proof
end

section
/-! Loads, immediate add and logic (R120 to R125): instructions that write one general register and no flag. -/

namespace Sys2Proof

open Machine

/-- The frame of a register write (R133): that register, with no flag beside it. -/
theorem onlyChanges_setV (s : State) (r : Reg) (b : Byte) : OnlyChanges [.v r] s (s.setV r b) := by
  intro p hp
  cases p with
  | v q =>
    have hne : q ≠ r := fun e => hp (e ▸ List.mem_singleton_self _)
    exact State.getV_setV_ne s hne b
  | answers => exact ⟨rfl, rfl, rfl⟩
  | _ => rfl

/-- Settles O17: each is one register write; the sum of bytes is `BitVec` addition, modulo 256. -/
theorem loadsAndImmediateAdd : Obligations.LoadsAndImmediateAdd := by
  refine ⟨encodes_of_family fun op hf => ?_, encodes_of_family fun op hf => ?_,
    encodes_of_family_last fun op hf hn => ?_, fun s x nn => ?_, fun s x nn => ?_, fun s x y => ?_⟩
  · simp [Laws.decodeByFamily, hf]
  · simp [Laws.decodeByFamily, hf]
  · simp [Laws.decodeByFamily, Laws.decodeAlu, hf, hn]
  · exact ⟨_, rfl, State.getV_setV_same s x nn, onlyChanges_setV s x _⟩
  · refine ⟨_, rfl, ?_, onlyChanges_setV s x _⟩
    rw [State.getV_setV_same, BitVec.toNat_add]
  · exact ⟨_, rfl, State.getV_setV_same s x _, onlyChanges_setV s x _⟩

/-- Settles O18: each is one register write of a bitwise operation, read back bit by bit. -/
theorem logicBitByBit : Obligations.LogicBitByBit := by
  refine ⟨encodes_of_family_last fun op hf hn => ?_, encodes_of_family_last fun op hf hn => ?_,
    encodes_of_family_last fun op hf hn => ?_, fun s x y => ?_, fun s x y => ?_, fun s x y => ?_⟩
  · simp [Laws.decodeByFamily, Laws.decodeAlu, hf, hn]
  · simp [Laws.decodeByFamily, Laws.decodeAlu, hf, hn]
  · simp [Laws.decodeByFamily, Laws.decodeAlu, hf, hn]
  · refine ⟨_, rfl, fun k => ?_, onlyChanges_setV s x _⟩
    rw [State.getV_setV_same, BitVec.getLsbD_or]
  · refine ⟨_, rfl, fun k => ?_, onlyChanges_setV s x _⟩
    rw [State.getV_setV_same, BitVec.getLsbD_and]
  · refine ⟨_, rfl, fun k => ?_, onlyChanges_setV s x _⟩
    rw [State.getV_setV_same, BitVec.getLsbD_xor]

end Sys2Proof
end

section
/-! Rows of Table 30-2 with a fixed low byte (R74, R75), and writes to the address register (R140, R141). -/

namespace Sys2Proof

open Machine Laws

/-- The words of a row whose fixed bits are the family nibble and the low byte. -/
theorem encodes_of_family_low {v : Word} {build : Word → Instr}
    (h : ∀ op : Word, op.toNat / 4096 = v.toNat / 4096 → op.toNat % 256 = v.toNat % 4096 →
      decodeByFamily op = build op) : Encodes 0xF0FF v build := by
  intro op hop
  obtain ⟨hfamily, hlow⟩ := of_decide_eq_true ((selects_family_low op v).symm.trans (beq_iff_eq.2 hop))
  rw [decode_eq]
  exact h op hfamily hlow

theorem onlyChanges_setI (s : State) (w : Word) : OnlyChanges [.i] s (s.setI w) := by
  intro p hp
  cases p with
  | i => exact absurd (List.mem_singleton_self _) hp
  | answers => exact ⟨rfl, rfl, rfl⟩
  | _ => rfl

/-- Settles O25: each is one write to `I`; the sum of words is `BitVec` addition, modulo 65536. -/
theorem indexRegisterWrites : Obligations.IndexRegisterWrites := by
  refine ⟨encodes_of_family fun op hf => ?_, encodes_of_family_low fun op hf hlow => ?_, fun s nnn => ?_,
    fun s x => ?_⟩
  · simp [decodeByFamily, hf]
  · simp [decodeByFamily, decodeMisc, hf, hlow]
  · exact ⟨_, rfl, toNat_addr12 nnn, onlyChanges_setI s _⟩
  · refine ⟨_, rfl, ?_, onlyChanges_setI s _⟩
    rw [State.setI_i, BitVec.toNat_add, toNat_zext16]

end Sys2Proof
end

section
/-! The three decimal digits of a byte in memory (R143): consecutive bytes from `I` on, and the meaning of `LD B`. -/

namespace Sys2Proof.Machine

theorem mem_bytesAtI (s : State) (n k : Nat) : Part.mem k ∈ s.bytesAtI n ↔ s.ea 0 ≤ k ∧ k < s.ea 0 + n := by
  simp only [State.bytesAtI, List.mem_map, List.mem_range, Part.mem.injEq, State.ea]
  constructor
  · rintro ⟨j, hj, rfl⟩
    omega
  · rintro ⟨hlo, hhi⟩
    exact ⟨k - s.i.toNat, by omega, by omega⟩

/-- The state after bytes are placed from `I` on. -/
def State.placedAtI (s : State) (bs : List Byte) : State := { s with mem := placeBytes (s.ea 0) bs s.mem }

theorem byteAt_placedAtI (s : State) (bs : List Byte) {k : Nat} (h : k < bs.length) :
    (s.placedAtI bs).byteAt (s.ea k) = bs[k] := by
  have hin : s.ea 0 ≤ s.ea k ∧ s.ea k < s.ea 0 + bs.length := by
    simp only [State.ea]
    omega
  have hk : s.ea k - s.ea 0 = k := by
    simp only [State.ea]
    omega
  change Memory.lookup (placeBytes (s.ea 0) bs s.mem) (s.ea k) = bs[k]
  rw [lookup_placeBytes, if_pos hin, hk, List.getD_eq_getElem bs 0 h]

theorem onlyChanges_placedAtI (s : State) (bs : List Byte) :
    OnlyChanges (s.bytesAtI bs.length) s (s.placedAtI bs) := by
  refine onlyChanges_mem s _ fun k hk => ?_
  rw [mem_bytesAtI] at hk
  rw [lookup_placeBytes, if_neg hk]
  rfl

theorem toNat_ofNat_of_le (b : Byte) {n : Nat} (h : n ≤ b.toNat) : (BitVec.ofNat 8 n).toNat = n :=
  Nat.mod_eq_of_lt (Nat.lt_of_le_of_lt h b.isLt)

/-- `LD B` where all three addresses are inside the address space. -/
theorem execLdB_ok (s : State) (x : Reg) (h : s.ea 2 ≤ 0xFFF) :
    execLdB x s = .next (s.placedAtI (bcdDigits (s.getV x))) := by
  refine storeBytes_ok _ s ?_
  simp only [bcdDigits_length, State.ea, memSize] at h ⊢
  omega

theorem execLdB_fault (s : State) (x : Reg) (h : 0xFFF < s.ea 2) : execLdB x s = .fault .addressOutOfRange := by
  refine storeBytes_fault _ s (List.cons_ne_nil _ _) ?_
  simp only [bcdDigits_length, State.ea, memSize] at h ⊢
  omega

end Sys2Proof.Machine

namespace Sys2Proof

open Machine Laws

/-- Settles O27: the digits are placed from `I` on, and each is at most the byte, so that it fits in 8 bits. -/
theorem bcdStoresThreeDigits : Obligations.BcdStoresThreeDigits := by
  refine ⟨encodes_of_family_low fun op hf hlow => ?_, fun s x h => ?_, execLdB_fault⟩
  · simp [decodeByFamily, decodeMisc, hf, hlow]
  · have hbyte {k : Nat} (hk : k < 3) := byteAt_placedAtI s (bcdDigits (s.getV x)) hk
    refine ⟨_, execLdB_ok s x h, ?_, ?_, ?_, onlyChanges_placedAtI s (bcdDigits (s.getV x))⟩
    · rw [hbyte (by decide)]
      exact toNat_ofNat_of_le (s.getV x) (Nat.div_le_self _ _)
    · rw [hbyte (by decide)]
      exact toNat_ofNat_of_le (s.getV x) ((Nat.mod_le _ _).trans (Nat.div_le_self _ _))
    · rw [hbyte (by decide)]
      exact toNat_ofNat_of_le (s.getV x) (Nat.mod_le _ _)

end Sys2Proof
end

section
/-! Registers to memory and back (R144, R145): the meanings of `LD [I], Vx` and `LD Vx, [I]`. -/

namespace Sys2Proof.Machine

/-- The addresses of `V0` to `VX` are inside the address space when the last one is. -/
theorem regsUpTo_inside {s : State} {x : Reg} (h : s.ea x.val ≤ 0xFFF) :
    ∀ r ∈ regsUpTo x, s.ea 0 + r.val < memSize := by
  intro r hr
  have hle : r.val ≤ x.val := (mem_regsUpTo x r).1 hr
  simp only [State.ea, memSize] at h ⊢
  omega

/-- The last address is outside the address space, and `VX` is one of the registers moved. -/
theorem regsUpTo_outside {s : State} {x : Reg} (h : 0xFFF < s.ea x.val) :
    ∃ r ∈ regsUpTo x, memSize ≤ s.ea 0 + r.val :=
  ⟨x, (mem_regsUpTo x x).2 le_rfl, h⟩

/-- The state after `V0` to `VX` are stored from `I` on. -/
def State.storedRegs (s : State) (x : Reg) : State :=
  { s with mem := (regsUpTo x).foldl (fun m r => Memory.store (s.ea 0 + r.val) (s.getV r) m) s.mem }

theorem byteAt_storedRegs (s : State) {x r : Reg} (h : r ≤ x) :
    (s.storedRegs x).byteAt (s.ea r.val) = s.getV r := by
  have hin : s.ea 0 ≤ s.ea r.val ∧ s.ea r.val < s.ea 0 + 16 := by
    simp only [State.ea]
    omega
  have hr : (⟨s.ea r.val - s.ea 0, by omega⟩ : Reg) = r := Fin.ext (Nat.add_sub_cancel_left ..)
  refine (lookup_storeRegs _ _ _ _ _).trans ?_
  rw [dif_pos hin, hr, if_pos ((mem_regsUpTo x r).2 h)]

theorem onlyChanges_storedRegs (s : State) (x : Reg) :
    OnlyChanges (s.bytesAtI (x.val + 1)) s (s.storedRegs x) := by
  refine onlyChanges_mem s _ fun k hk => ?_
  rw [mem_bytesAtI] at hk
  rw [lookup_storeRegs]
  by_cases hin : s.ea 0 ≤ k ∧ k < s.ea 0 + 16
  · have hnot : (⟨k - s.ea 0, by omega⟩ : Reg) ∉ regsUpTo x := by
      rw [mem_regsUpTo, Fin.le_def]
      change ¬ k - s.ea 0 ≤ x.val
      omega
    rw [dif_pos hin, if_neg hnot]
    rfl
  · rw [dif_neg hin]
    rfl

theorem execStRegs_ok (s : State) (x : Reg) (h : s.ea x.val ≤ 0xFFF) :
    execStRegs x s = .next (s.storedRegs x) :=
  storeRegs_ok _ s (regsUpTo_inside h)

theorem execStRegs_fault (s : State) (x : Reg) (h : 0xFFF < s.ea x.val) :
    execStRegs x s = .fault .addressOutOfRange :=
  storeRegs_fault s (regsUpTo_outside h)

theorem mem_regParts (x r : Reg) : Part.v r ∈ regParts x ↔ r ≤ x := by
  simp [regParts]

/-- The frame of an operation that replaces the registers alone and keeps every one that is not listed. -/
theorem onlyChanges_v {ps : List Part} {s t : State} (ht : t = { s with v := t.v })
    (h : ∀ r, Part.v r ∉ ps → t.getV r = s.getV r) : OnlyChanges ps s t := by
  intro p hp
  cases p with
  | v r => exact h r hp
  | answers => exact ht ▸ ⟨rfl, rfl, rfl⟩
  | _ => exact ht ▸ rfl

/-- `LD Vx, [I]` where the last address is inside the address space: only registers change. -/
theorem execLdRegs_ok (s : State) (x : Reg) (h : s.ea x.val ≤ 0xFFF) :
    ∃ t, execLdRegs x s = .next t ∧ t = { s with v := t.v } ∧
      ∀ q, t.getV q = if q ≤ x then s.byteAt (s.ea q.val) else s.getV q := by
  obtain ⟨t, hexec, hrest, hregs⟩ := loadRegs_ok (regsUpTo x) s (regsUpTo_inside h)
  refine ⟨t, hexec, hrest, fun q => ?_⟩
  simp only [hregs, mem_regsUpTo]
  rfl

theorem execLdRegs_fault (s : State) (x : Reg) (h : 0xFFF < s.ea x.val) :
    execLdRegs x s = .fault .addressOutOfRange :=
  loadRegs_fault s (regsUpTo_outside h)

end Sys2Proof.Machine

namespace Sys2Proof

open Machine Laws

/-- Settles O28: the stores are at distinct addresses from `I` on, so that each register is read back. -/
theorem storeRegisters : Obligations.StoreRegisters := by
  refine ⟨encodes_of_family_low fun op hf hlow => ?_, fun s x h => ?_, execStRegs_fault⟩
  · simp [decodeByFamily, decodeMisc, hf, hlow]
  · exact ⟨_, execStRegs_ok s x h, fun r hr => byteAt_storedRegs s hr, onlyChanges_storedRegs s x⟩

/-- Settles O29: `LD Vx, [I]` replaces the registers alone, and of these only `V0` to `VX`. -/
theorem loadRegisters : Obligations.LoadRegisters := by
  refine ⟨encodes_of_family_low fun op hf hlow => ?_, fun s x h => ?_, execLdRegs_fault⟩
  · simp [decodeByFamily, decodeMisc, hf, hlow]
  · obtain ⟨t, hexec, hrest, hregs⟩ := execLdRegs_ok s x h
    refine ⟨t, hexec, fun r hr => by rw [hregs, if_pos hr], onlyChanges_v hrest fun r hr => ?_⟩
    rw [mem_regParts] at hr
    rw [hregs, if_neg hr]

end Sys2Proof
end

section
/-! The timer instructions (R165 to R167): the frames of a write to the delay and to the sound timer. -/

namespace Sys2Proof

open Machine Laws

theorem onlyChanges_setDt (s : State) (b : Byte) : OnlyChanges [.dt] s (s.setDt b) := by
  intro p hp
  cases p with
  | dt => exact absurd (List.mem_singleton_self _) hp
  | answers => exact ⟨rfl, rfl, rfl⟩
  | _ => rfl

theorem onlyChanges_setSt (s : State) (b : Byte) : OnlyChanges [.st] s (s.setSt b) := by
  intro p hp
  cases p with
  | st => exact absurd (List.mem_singleton_self _) hp
  | answers => exact ⟨rfl, rfl, rfl⟩
  | _ => rfl

/-- Settles O39: each is one copy between a register and a timer, with the frame of that one write. -/
theorem timerInstructions : Obligations.TimerInstructions := by
  refine ⟨encodes_of_family_low fun op hf hlow => ?_, encodes_of_family_low fun op hf hlow => ?_,
    encodes_of_family_low fun op hf hlow => ?_, fun s x => ?_, fun s x => ?_, fun s x => ?_⟩
  · simp [decodeByFamily, decodeMisc, hf, hlow]
  · simp [decodeByFamily, decodeMisc, hf, hlow]
  · simp [decodeByFamily, decodeMisc, hf, hlow]
  · exact ⟨_, rfl, State.getV_setV_same s x s.dt, onlyChanges_setV s x s.dt⟩
  · exact ⟨_, rfl, State.setDt_dt s (s.getV x), onlyChanges_setDt s (s.getV x)⟩
  · exact ⟨_, rfl, State.setSt_st s (s.getV x), onlyChanges_setSt s (s.getV x)⟩

end Sys2Proof
end

section
/-! The fields of the encoder's words, and the words of an opcode's own fields (R71 to R73). -/

namespace Sys2Proof.Laws

theorem fieldNNN_encNNN {f : Nat} (hf : f < 16) (nnn : BitVec 12) : fieldNNN (encNNN f nnn) = nnn := by
  apply BitVec.eq_of_toNat_eq
  simp only [fieldNNN, toNat_encNNN hf, BitVec.toNat_ofNat]
  omega

theorem fieldX_encXNN {f : Nat} (hf : f < 16) (x : Reg) (nn : Byte) : fieldX (encXNN f x nn) = x := by
  apply Fin.ext
  simp only [fieldX, toNat_encXNN hf]
  omega

theorem fieldNN_encXNN {f : Nat} (hf : f < 16) (x : Reg) (nn : Byte) : fieldNN (encXNN f x nn) = nn := by
  apply BitVec.eq_of_toNat_eq
  simp only [fieldNN, toNat_encXNN hf, BitVec.toNat_ofNat]
  omega

theorem fieldX_encXYN {f : Nat} (hf : f < 16) (x y : Reg) (n : Fin 16) : fieldX (encXYN f x y n) = x := by
  apply Fin.ext
  simp only [fieldX, toNat_encXYN hf]
  omega

theorem fieldY_encXYN {f : Nat} (hf : f < 16) (x y : Reg) (n : Fin 16) : fieldY (encXYN f x y n) = y := by
  apply Fin.ext
  simp only [fieldY, toNat_encXYN hf]
  omega

theorem fieldN_encXYN {f : Nat} (hf : f < 16) (x y : Reg) (n : Fin 16) : fieldN (encXYN f x y n) = n := by
  apply Fin.ext
  simp only [fieldN, toNat_encXYN hf]
  omega

theorem family_encNNN {f : Nat} (hf : f < 16) (nnn : BitVec 12) : (encNNN f nnn).toNat / 4096 = f := by
  rw [toNat_encNNN hf]
  omega

theorem family_encXNN {f : Nat} (hf : f < 16) (x : Reg) (nn : Byte) : (encXNN f x nn).toNat / 4096 = f := by
  rw [toNat_encXNN hf]
  omega

theorem family_encXYN {f : Nat} (hf : f < 16) (x y : Reg) (n : Fin 16) : (encXYN f x y n).toNat / 4096 = f := by
  rw [toNat_encXYN hf]
  omega

theorem low_encXNN {f : Nat} (hf : f < 16) (x : Reg) (nn : Byte) : (encXNN f x nn).toNat % 256 = nn.toNat := by
  rw [toNat_encXNN hf]
  omega

theorem last_encXYN {f : Nat} (hf : f < 16) (x y : Reg) (n : Fin 16) : (encXYN f x y n).toNat % 16 = n.val := by
  rw [toNat_encXYN hf]
  omega

theorem encNNN_fieldNNN {op : Word} {f : Nat} (hf : op.toNat / 4096 = f) : encNNN f (fieldNNN op) = op := by
  apply BitVec.eq_of_toNat_eq
  simp only [encNNN, fieldNNN, BitVec.toNat_ofNat]
  omega

theorem encXNN_fieldX {op : Word} {f : Nat} {nn : Byte} (hf : op.toNat / 4096 = f)
    (hlow : op.toNat % 256 = nn.toNat) : encXNN f (fieldX op) nn = op := by
  apply BitVec.eq_of_toNat_eq
  simp only [encXNN, fieldX, BitVec.toNat_ofNat]
  omega

theorem encXNN_fields {op : Word} {f : Nat} (hf : op.toNat / 4096 = f) : encXNN f (fieldX op) (fieldNN op) = op :=
  encXNN_fieldX hf (BitVec.toNat_ofNat op.toNat 8).symm

theorem encXYN_fieldX_fieldY {op : Word} {f : Nat} {n : Fin 16} (hf : op.toNat / 4096 = f)
    (hlast : op.toNat % 16 = n.val) : encXYN f (fieldX op) (fieldY op) n = op := by
  apply BitVec.eq_of_toNat_eq
  simp only [encXYN, fieldX, fieldY, BitVec.toNat_ofNat]
  omega

end Sys2Proof.Laws
end

section
/-! Decoding and encoding (R74 to R78): each undoes the other, the unrecognised words by their own list (R77). -/

namespace Sys2Proof

open Laws

/-- An unrecognised word selects no row of its family. -/
theorem decode_of_unrecognised {op : Word} (h : unrecognised op = true) : decode op = .undef op := by
  rw [decode_eq]
  unfold unrecognised at h
  unfold decodeByFamily
  split at h
  case h_1 hf =>
    have hlast : op.toNat % 16 ≠ 0 := by simpa using h
    simp [hf, hlast]
  case h_2 hf =>
    simp only [hf, decodeAlu]
    generalize op.toNat % 16 = n at h ⊢
    have hlast : n = 0x8 ∨ n = 0x9 ∨ n = 0xA ∨ n = 0xB ∨ n = 0xC ∨ n = 0xD ∨ n = 0xF := by simpa using h
    rcases hlast with rfl | rfl | rfl | rfl | rfl | rfl | rfl <;> rfl
  case h_3 hf =>
    have hlast : op.toNat % 16 ≠ 0 := by simpa using h
    simp [hf, hlast]
  case h_4 hf =>
    simp only [Bool.not_eq_true', List.contains_eq_mem, decide_eq_false_iff_not, List.mem_cons, List.not_mem_nil,
      or_false, not_or] at h
    simp [hf, h]
  case h_5 hf =>
    simp only [Bool.not_eq_true', List.contains_eq_mem, decide_eq_false_iff_not, List.mem_cons, List.not_mem_nil,
      or_false, not_or] at h
    simp [hf, decodeMisc, h]
  case h_6 => cases h

/-- Settles O2: the family nibble and the selectors of the instruction's word name its row, whose fields give the
operands back; an unrecognised word has no row. -/
theorem decodeOfEncode : Obligations.DecodeOfEncode := by
  intro i hi
  cases i with
  | cls | ret => decide
  | undef op => exact decode_of_unrecognised hi
  | sys nnn =>
    obtain ⟨hcls, hret⟩ : nnn.toNat ≠ 0x0E0 ∧ nnn.toNat ≠ 0x0EE := by
      simpa [Instr.wellFormed, ← BitVec.toNat_inj] using hi
    have hop : (encNNN 0x0 nnn).toNat = nnn.toNat := (toNat_encNNN (by decide) nnn).trans (Nat.zero_add _)
    have hf : nnn.toNat / 4096 = 0x0 := Nat.div_eq_of_lt nnn.isLt
    simp [encode, decode_eq, decodeByFamily, fieldNNN_encNNN, hop, hf, hcls, hret]
  | jp | call | ldI | jpV0 =>
    simp [encode, decode_eq, decodeByFamily, family_encNNN, fieldNNN_encNNN]
  | seImm | sneImm | ldImm | addImm | rnd =>
    simp [encode, decode_eq, decodeByFamily, family_encXNN, fieldX_encXNN, fieldNN_encXNN]
  | seReg | sneReg | drw =>
    simp [encode, decode_eq, decodeByFamily, family_encXYN, last_encXYN, fieldX_encXYN, fieldY_encXYN, fieldN_encXYN]
  | ldReg | or | and | xor | addReg | sub | shr | subn | shl =>
    simp [encode, decode_eq, decodeByFamily, decodeAlu, family_encXYN, last_encXYN, fieldX_encXYN, fieldY_encXYN]
  | skp | sknp | ldVxDt | ldVxK | ldDtVx | ldStVx | addI | ldF | ldB | stRegs | ldRegs =>
    simp [encode, decode_eq, decodeByFamily, decodeMisc, family_encXNN, low_encXNN, fieldX_encXNN]

/-- The instruction is well formed and the word is its own. -/
def IsWordOf (op : Word) (i : Instr) : Prop := i.wellFormed = true ∧ encode i = op

theorem isWordOf_undef {op : Word} (h : unrecognised op = true) : IsWordOf op (.undef op) := ⟨h, rfl⟩

theorem isWordOf_decodeAlu {op : Word} (hf : op.toNat / 4096 = 0x8) :
    IsWordOf op (decodeAlu op (fieldX op) (fieldY op)) := by
  unfold decodeAlu
  split_ifs
  case neg =>
    refine isWordOf_undef ?_
    simp only [unrecognised, hf, List.contains_eq_mem, decide_eq_true_eq, List.mem_cons, List.not_mem_nil, or_false]
    omega
  all_goals exact ⟨rfl, encXYN_fieldX_fieldY hf (by assumption)⟩

theorem isWordOf_decodeMisc {op : Word} (hf : op.toNat / 4096 = 0xF) : IsWordOf op (decodeMisc op (fieldX op)) := by
  unfold decodeMisc
  split_ifs
  case neg =>
    refine isWordOf_undef ?_
    simp [unrecognised, *]
  all_goals exact ⟨rfl, encXNN_fieldX hf (by assumption)⟩

/-- The words of family 0 are those of its two fixed rows and the legacy ones (R76). -/
theorem isWordOf_sys {op : Word} (hf : op.toNat / 4096 = 0) (hcls : op.toNat ≠ 0x00E0) (hret : op.toNat ≠ 0x00EE) :
    IsWordOf op (.sys (fieldNNN op)) := by
  have hnnn : (fieldNNN op).toNat = op.toNat := by
    simp only [fieldNNN, BitVec.toNat_ofNat]
    omega
  refine ⟨?_, encNNN_fieldNNN hf⟩
  simp [Instr.wellFormed, ← BitVec.toNat_inj, hnnn, hcls, hret]

/-- Settles O3: family by family (case `h_k` is family `k - 1`), the fields a row takes from a word and the row's fixed
bits make up the word. -/
theorem encodeOfDecode : Obligations.EncodeOfDecode := by
  intro op
  change IsWordOf op (decode op)
  have hop : op.toNat / 4096 < 16 := by omega
  rw [decode_eq]
  unfold decodeByFamily
  split
  case h_1 hf =>
    split_ifs with hcls hret
    · exact ⟨rfl, BitVec.eq_of_toNat_eq hcls.symm⟩
    · exact ⟨rfl, BitVec.eq_of_toNat_eq hret.symm⟩
    · exact isWordOf_sys hf hcls hret
  case h_6 hf | h_10 hf =>
    split_ifs with hlast
    · exact ⟨rfl, encXYN_fieldX_fieldY hf hlast⟩
    · exact isWordOf_undef (by simp [unrecognised, hf, hlast])
  case h_9 hf => exact isWordOf_decodeAlu hf
  case h_14 hf => exact ⟨rfl, encXYN_fieldX_fieldY hf rfl⟩
  case h_15 hf =>
    split_ifs with hskp hsknp
    · exact ⟨rfl, encXNN_fieldX hf hskp⟩
    · exact ⟨rfl, encXNN_fieldX hf hsknp⟩
    · exact isWordOf_undef (by simp [unrecognised, hf, hskp, hsknp])
  case h_16 =>
    simp only [imp_false] at *
    exact isWordOf_decodeMisc (by omega)
  case h_2 hf | h_3 hf | h_11 hf | h_12 hf => exact ⟨rfl, encNNN_fieldNNN hf⟩
  all_goals exact ⟨rfl, encXNN_fields (by assumption)⟩

/-- The five groups of unrecognised words (R77). -/
theorem unrecognised_iff (op : Word) : unrecognised op = true ↔
    (op.toNat / 4096 = 0x5 ∧ op.toNat % 16 ≠ 0) ∨
    (op.toNat / 4096 = 0x8 ∧ op.toNat % 16 ∈ [0x8, 0x9, 0xA, 0xB, 0xC, 0xD, 0xF]) ∨
    (op.toNat / 4096 = 0x9 ∧ op.toNat % 16 ≠ 0) ∨
    (op.toNat / 4096 = 0xE ∧ op.toNat % 256 ∉ [0x9E, 0xA1]) ∨
    (op.toNat / 4096 = 0xF ∧ op.toNat % 256 ∉ [0x07, 0x0A, 0x15, 0x18, 0x1E, 0x29, 0x33, 0x55, 0x65]) := by
  unfold unrecognised
  split
  case h_6 =>
    simp only [imp_false] at *
    simp [*]
  all_goals simp [*]

/-- Settles O4: a decoded term is well formed and its word is the opcode; and a well-formed term is what its word
decodes to. -/
theorem legacyAndUnrecognisedWords : Obligations.LegacyAndUnrecognisedWords := by
  intro op
  obtain ⟨hwf, hword⟩ := encodeOfDecode op
  refine ⟨⟨?_, fun ⟨hlt, hcls, hret⟩ => ?_⟩, Iff.trans ⟨?_, fun h => ?_⟩ (unrecognised_iff op)⟩
  · rintro ⟨nnn, h⟩
    rw [h] at hwf hword
    have hop : op.toNat = nnn.toNat := by rw [← hword, encode, toNat_encNNN (by decide), Nat.zero_mul, Nat.zero_add]
    have hne : nnn.toNat ≠ 0x0E0 ∧ nnn.toNat ≠ 0x0EE := by
      simpa [Instr.wellFormed, ← BitVec.toNat_inj] using hwf
    exact ⟨by omega, by omega, by omega⟩
  · obtain ⟨hsys, hencode⟩ := isWordOf_sys (by omega) hcls hret
    exact ⟨_, hencode ▸ decodeOfEncode _ hsys⟩
  · rintro ⟨w, h⟩
    rw [h] at hwf hword
    exact hword ▸ hwf
  · exact ⟨op, decode_of_unrecognised h⟩

/-- Settles O1: Table 30-2 evaluated on the twelve words. -/
theorem specWordsDecode : Obligations.SpecWordsDecode := by
  unfold Obligations.SpecWordsDecode
  decide

/-- Two rows that ask for different values of a bit both test. -/
def Row.clash (p q : Row) : Bool := p.value &&& q.mask != q.value &&& p.mask

/-- Rows that clash select no word in common. -/
theorem Row.not_selects_both_of_clash {p q : Row} (h : p.clash q = true) (op : Word) :
    ¬ (p.selects op = true ∧ q.selects op = true) := by
  rintro ⟨hp, hq⟩
  have hpv : op &&& p.mask = p.value := beq_iff_eq.1 hp
  have hqv : op &&& q.mask = q.value := beq_iff_eq.1 hq
  have hsame : p.value &&& q.mask = q.value &&& p.mask := by
    rw [← hpv, ← hqv, BitVec.and_assoc, BitVec.and_assoc, BitVec.and_comm p.mask]
  simp [Row.clash, hsame] at h

/-- Settles O6: in both shortened tables every two rows clash. -/
theorem rowsAreExclusive : Obligations.RowsAreExclusive := by
  have hclash : (rows.eraseIdx 2).Pairwise (fun p q => p.clash q = true) ∧
      (rows.drop 2).Pairwise (fun p q => p.clash q = true) := by decide
  obtain ⟨hlegacy, hfixed⟩ := hclash
  exact ⟨hlegacy.imp Row.not_selects_both_of_clash, hfixed.imp Row.not_selects_both_of_clash⟩

end Sys2Proof
end

section
/-! Frames of the remaining updates of the state: the mode, the display, the host's answers, the flag and the result of
an arithmetic instruction. -/

namespace Sys2Proof

open Machine

theorem onlyChanges_nil (s : State) : OnlyChanges [] s s := by
  intro p _
  cases p with
  | answers => exact ⟨rfl, rfl, rfl⟩
  | _ => rfl

/-- The frame of two updates one after the other. -/
theorem onlyChanges_append {ps qs : List Part} {s t u : State} (hst : OnlyChanges ps s t) (htu : OnlyChanges qs t u) :
    OnlyChanges (ps ++ qs) s u :=
  onlyChanges_trans (onlyChanges_mono (List.subset_append_left ps qs) hst)
    (onlyChanges_mono (List.subset_append_right ps qs) htu)

theorem onlyChanges_setMode (s : State) (m : Mode) : OnlyChanges [.mode] s (s.setMode m) := by
  intro p hp
  cases p with
  | mode => exact absurd (List.mem_singleton_self _) hp
  | answers => exact ⟨rfl, rfl, rfl⟩
  | _ => rfl

theorem onlyChanges_setFb (s : State) (f : FrameBuffer) : OnlyChanges [.fb] s (s.setFb f) := by
  intro p hp
  cases p with
  | fb => exact absurd (List.mem_singleton_self _) hp
  | answers => exact ⟨rfl, rfl, rfl⟩
  | _ => rfl

theorem onlyChanges_setReport (s : State) (q : Report) : OnlyChanges [.report] s (s.setReport q) := by
  intro p hp
  cases p with
  | report => exact absurd (List.mem_singleton_self _) hp
  | answers => exact ⟨rfl, rfl, rfl⟩
  | _ => rfl

/-- The frame of a query: the host's answers, not its script (R96). -/
theorem onlyChanges_answers (s : State) {e : Env} (h : e.script = s.env.script) :
    OnlyChanges [.answers] s { s with env := e } := by
  intro p hp
  cases p with
  | answers => exact absurd (List.mem_singleton_self _) hp
  | script => exact h
  | _ => rfl

theorem onlyChanges_afterRandom (s : State) : OnlyChanges [.answers] s s.afterRandom := onlyChanges_answers s rfl

theorem onlyChanges_afterKey (s : State) : OnlyChanges [.answers] s s.afterKey := onlyChanges_answers s rfl

/-- The frame of a flag and a result: the destination and `VF`. -/
theorem onlyChanges_flagThenResult (flag result : Byte → Byte → Byte) (x a b : Reg) (s : State) :
    OnlyChanges [.v x, .v 15] s (flagThenResult flag result x a b s) :=
  onlyChanges_mono (by simp) (onlyChanges_append (onlyChanges_setV s regF _) (onlyChanges_setV _ x _))

end Sys2Proof
end

section
/-! The meaning of `DRW` (R154), and what every instruction does by the tables `faultOf` and `writes`: it completes
inside its frame, or raises its fault (Table 60-1). -/

namespace Sys2Proof.Machine

/-- The state after the sprite at `I` is drawn at the origin in `V[X]`, `V[Y]`. -/
def State.drawn (s : State) (x y : Reg) (n : Fin 16) : State :=
  let d := drawSprite (s.getV x) (s.getV y) (spriteRows s n) s.fb
  ((s.setFb d.1).setV regF (b2i d.2)).setReport .frameUpdated

theorem onlyChanges_drawn (s : State) (x y : Reg) (n : Fin 16) :
    OnlyChanges [.fb, .v 15, .report] s (s.drawn x y n) :=
  onlyChanges_append (onlyChanges_setFb s _)
    (onlyChanges_append (onlyChanges_setV _ regF _) (onlyChanges_setReport _ _))

/-- `DRW` where there is no row to read, or the last one is inside the address space. -/
theorem execDrw_ok (s : State) (x y : Reg) (n : Fin 16) (h : n.val = 0 ∨ s.ea (n.val - 1) ≤ 0xFFF) :
    execDrw x y n s = .next (s.drawn x y n) := by
  have hrows : readBytes (s.ea 0) n.val s = .ok (spriteRows s n) := by
    refine readBytes_ok _ s ?_
    simp only [State.ea, memSize] at h ⊢
    omega
  rw [execDrw, hrows]
  rfl

theorem execDrw_fault (s : State) (x y : Reg) (n : Fin 16) (hn : 1 ≤ n.val) (h : 0xFFF < s.ea (n.val - 1)) :
    execDrw x y n s = .fault .addressOutOfRange := by
  have hrows : readBytes (s.ea 0) n.val s = .error .addressOutOfRange := by
    refine readBytes_error _ s (by omega) ?_
    simp only [State.ea, memSize] at h ⊢
    omega
  rw [execDrw, hrows]
  rfl

end Sys2Proof.Machine

namespace Sys2Proof

open Machine

/-- An entry of the fault table that is not there: its condition does not hold. -/
theorem not_of_ite_none {c : Prop} [Decidable c] {f : Fault} (h : (if c then some f else none) = none) : ¬ c := by
  simpa using h

/-- Where the fault table has no entry, the instruction completes inside its frame. -/
theorem exec_completes {i : Instr} {s : State} (h : faultOf i s = none) :
    ∃ t, exec i s = .next t ∧ OnlyChanges (writes i s) s t := by
  cases i with
  | cls => exact ⟨_, rfl, onlyChanges_append (onlyChanges_setFb s _) (onlyChanges_setReport _ _)⟩
  | ret =>
    have hd : s.depth.val ≠ 0 := not_of_ite_none h
    exact ⟨_, execRet_ok s ⟨s.depth.val - 1, by omega⟩ (by dsimp only; omega),
      onlyChanges_mono (by simp [writes]) (onlyChanges_append (onlyChanges_popped s) (onlyChanges_setPc _ _))⟩
  | sys | undef => exact ⟨_, rfl, onlyChanges_nil s⟩
  | jp | jpV0 => exact ⟨_, rfl, onlyChanges_setPc s _⟩
  | call nnn =>
    have hd : s.depth.val < 16 := by
      have : s.depth.val ≠ 16 := not_of_ite_none h
      omega
    exact ⟨_, execCall_ok s nnn hd,
      onlyChanges_mono (by simp [writes, State.nextEntry, hd])
        (onlyChanges_append (onlyChanges_pushed s s.pc hd) (onlyChanges_setPc _ _))⟩
  | seImm | sneImm | seReg | sneReg => exact ⟨_, rfl, onlyChanges_skipIf s _⟩
  | ldImm | addImm | ldReg | or | and | xor | ldVxDt => exact ⟨_, rfl, onlyChanges_setV s _ _⟩
  | addReg | sub | shr | subn | shl => exact ⟨_, rfl, onlyChanges_flagThenResult _ _ _ _ _ s⟩
  | ldI | addI | ldF => exact ⟨_, rfl, onlyChanges_setI s _⟩
  | rnd =>
    exact ⟨_, rfl,
      onlyChanges_mono (by simp [writes]) (onlyChanges_append (onlyChanges_afterRandom s) (onlyChanges_setV _ _ _))⟩
  | drw x y n =>
    refine ⟨_, execDrw_ok s x y n ?_, onlyChanges_drawn s x y n⟩
    have hin := not_of_ite_none h
    simp only [State.ea]
    omega
  | skp | sknp =>
    exact ⟨_, rfl,
      onlyChanges_mono (by simp [writes]) (onlyChanges_append (onlyChanges_afterKey s) (onlyChanges_skipIf _ _))⟩
  | ldVxK => exact ⟨_, rfl, onlyChanges_setMode s _⟩
  | ldDtVx => exact ⟨_, rfl, onlyChanges_setDt s _⟩
  | ldStVx => exact ⟨_, rfl, onlyChanges_setSt s _⟩
  | ldB x =>
    exact ⟨_, execLdB_ok s x (not_lt.1 (not_of_ite_none h)), onlyChanges_placedAtI s (bcdDigits (s.getV x))⟩
  | stRegs x =>
    exact ⟨_, execStRegs_ok s x (not_lt.1 (not_of_ite_none h)), onlyChanges_storedRegs s x⟩
  | ldRegs x =>
    obtain ⟨t, hexec, hrest, hregs⟩ := execLdRegs_ok s x (not_lt.1 (not_of_ite_none h))
    refine ⟨t, hexec, onlyChanges_v hrest fun r hr => ?_⟩
    rw [hregs, if_neg fun hle => hr ((mem_regParts x r).2 hle)]

/-- Where the fault table has an entry, the instruction raises it. -/
theorem exec_faults {i : Instr} {s : State} {f : Fault} (h : faultOf i s = some f) : exec i s = .fault f := by
  cases i with
  | ret =>
    obtain ⟨hd, ⟨⟩⟩ := Option.ite_none_right_eq_some.1 h
    exact execRet_empty s hd
  | call nnn =>
    obtain ⟨hd, ⟨⟩⟩ := Option.ite_none_right_eq_some.1 h
    exact execCall_full s nnn hd
  | drw x y n =>
    obtain ⟨⟨hn, hout⟩, ⟨⟩⟩ := Option.ite_none_right_eq_some.1 h
    refine execDrw_fault s x y n hn ?_
    simp only [State.ea]
    omega
  | ldB x =>
    obtain ⟨hout, ⟨⟩⟩ := Option.ite_none_right_eq_some.1 h
    exact execLdB_fault s x hout
  | stRegs x =>
    obtain ⟨hout, ⟨⟩⟩ := Option.ite_none_right_eq_some.1 h
    exact execStRegs_fault s x hout
  | ldRegs x =>
    obtain ⟨hout, ⟨⟩⟩ := Option.ite_none_right_eq_some.1 h
    exact execLdRegs_fault s x hout
  | _ => cases h

/-- Every instruction does one or the other; none is refused. -/
theorem exec_cases (i : Instr) (s : State) :
    (faultOf i s = none ∧ ∃ t, exec i s = .next t ∧ OnlyChanges (writes i s) s t) ∨
      ∃ f, faultOf i s = some f ∧ exec i s = .fault f := by
  cases hf : faultOf i s with
  | none => exact .inl ⟨rfl, exec_completes hf⟩
  | some f => exact .inr ⟨f, rfl, exec_faults hf⟩

theorem exec_fault_iff {i : Instr} {s : State} {f : Fault} : exec i s = .fault f ↔ faultOf i s = some f := by
  obtain ⟨hnone, t, hexec, -⟩ | ⟨g, hsome, hexec⟩ := exec_cases i s
  · simp [hnone, hexec]
  · simp [hsome, hexec]

theorem exec_ne_refused (i : Instr) (s : State) (q : Refusal) : exec i s ≠ .refused q := by
  obtain ⟨-, t, hexec, -⟩ | ⟨f, -, hexec⟩ := exec_cases i s
  · simp [hexec]
  · simp [hexec]

theorem exec_frame {i : Instr} {s t : State} (h : exec i s = .next t) : OnlyChanges (writes i s) s t := by
  obtain ⟨-, u, hexec, hframe⟩ | ⟨f, -, hexec⟩ := exec_cases i s
  · obtain rfl : u = t := Host.Outcome.next.inj (hexec.symm.trans h)
    exact hframe
  · cases hexec.symm.trans h

/-- Settles O48: an instruction that completes is one the fault table lets through, and that one keeps to its frame. -/
theorem everyInstructionFrame : Obligations.EveryInstructionFrame := fun _ _ _ h => exec_frame h

/-- Settles O49: where the fault table has no entry the instruction completes, and where it has one it faults. -/
theorem instructionFaultsExactly : Obligations.InstructionFaultsExactly := by
  refine fun i s => ⟨fun f => exec_fault_iff, fun h => ?_⟩
  obtain ⟨t, hexec, -⟩ := exec_completes h
  exact ⟨t, hexec⟩

end Sys2Proof
end

section
/-! The step (R90 to R97), operation by operation, and the opcode a `Cycle` fetches. -/

namespace Sys2Proof.Machine

open Laws

variable {s : State} {op : Word}

/-! ### The opcode at `PC` (R54, R91) -/

/-- The opcode of a fetch is the word of the two bytes at `PC`. -/
theorem fetches_iff : s.Fetches op ↔ s.nextOp = .cycle ∧ s.mode = .running ∧ s.pc.toNat ≤ 0xFFE ∧
    op = wordOfBytes (s.byteAt s.pc.toNat) (s.byteAt (s.pc.toNat + 1)) := by
  rw [State.Fetches, ← toNat_wordOfBytes, BitVec.toNat_inj]

theorem fetches_unique {op' : Word} (h : s.Fetches op) (h' : s.Fetches op') : op = op' := by
  obtain ⟨-, -, -, hop⟩ := fetches_iff.1 h
  obtain ⟨-, -, -, hop'⟩ := fetches_iff.1 h'
  rw [hop, hop']

theorem exists_fetches (hcycle : s.nextOp = .cycle) (hmode : s.mode = .running) (hpc : s.pc.toNat ≤ 0xFFE) :
    ∃ op, s.Fetches op :=
  ⟨_, fetches_iff.2 ⟨hcycle, hmode, hpc, rfl⟩⟩

theorem fetch_of_fetches (h : s.Fetches op) : fetch s = .ok (decode op, s.setPc (s.pc + 2)) := by
  obtain ⟨-, -, hpc, rfl⟩ := fetches_iff.1 h
  exact fetch_ok s (by simp only [memSize]; omega)

/-- The advanced `PC` of a fetch does not wrap (R92). -/
theorem toNat_advanced_pc (h : s.Fetches op) : (s.pc + 2).toNat = s.pc.toNat + 2 := by
  obtain ⟨-, -, hpc, -⟩ := fetches_iff.1 h
  rw [BitVec.toNat_add_of_lt]
  · rfl
  · change s.pc.toNat + 2 < 65536
    omega

/-! ### One equation for each operation -/

theorem step_reset (h : s.nextOp = .reset) : step s = .next (hostReset s.begin) := by
  rw [step, h]
  rfl

theorem step_loadProgram {bytes : List Byte} (h : s.nextOp = .loadProgram bytes) :
    step s = .next (hostLoadProgram bytes s.begin) := by
  rw [step, h]
  rfl

theorem step_tickTimers (h : s.nextOp = .tickTimers) : step s = .next (hostTickTimers s.begin) := by
  rw [step, h]
  rfl

theorem step_keyEvent {k : Key} (h : s.nextOp = .keyEvent k) : step s = .next (hostKeyEvent k s.begin) := by
  rw [step, h]
  rfl

theorem step_cycle (h : s.nextOp = .cycle) : step s = cycle s.begin := by
  rw [step, h]
  rfl

theorem step_awaiting {r : Reg} (h : s.nextOp = .cycle) (hmode : s.mode = .awaitingKey r) :
    step s = .next s.begin := by
  rw [step_cycle h, cycle, State.begin_mode, hmode]

theorem step_faulted {c : Fault} (h : s.nextOp = .cycle) (hmode : s.mode = .faulted c) : step s = .fault c := by
  rw [step_cycle h, cycle, State.begin_mode, hmode]
  rfl

theorem step_running (h : s.nextOp = .cycle) (hmode : s.mode = .running) :
    step s = andThen (fetch s.begin) (fun p => exec p.1 p.2) := by
  rw [step_cycle h, cycle, State.begin_mode, hmode]

/-- The state the instruction of a fetch begins with: the operation begun and `PC` advanced (R92). -/
def State.fetched (s : State) : State := s.begin.setPc (s.pc + 2)

theorem step_of_fetches (h : s.Fetches op) : step s = exec (decode op) s.fetched := by
  obtain ⟨hcycle, hmode, hpc, rfl⟩ := fetches_iff.1 h
  rw [step_running hcycle hmode, fetch_ok s.begin (by simp only [State.begin_pc, memSize]; omega)]
  rfl

theorem step_above_top (h : s.nextOp = .cycle) (hmode : s.mode = .running) (hpc : 0xFFE < s.pc.toNat) :
    step s = .fault .addressOutOfRange := by
  rw [step_running h hmode, fetch_error s.begin (by simp only [State.begin_pc, memSize]; omega)]
  rfl

/-- What a step can answer, by the operation and, for a `Cycle`, by the mode and `PC` (R90, R91, R94, R95). -/
inductive StepCase (s : State) : Result → Prop where
  | reset (hop : s.nextOp = .reset) : StepCase s (.next (hostReset s.begin))
  | loadProgram {bytes : List Byte} (hop : s.nextOp = .loadProgram bytes) :
      StepCase s (.next (hostLoadProgram bytes s.begin))
  | tickTimers (hop : s.nextOp = .tickTimers) : StepCase s (.next (hostTickTimers s.begin))
  | keyEvent {k : Key} (hop : s.nextOp = .keyEvent k) : StepCase s (.next (hostKeyEvent k s.begin))
  | awaiting {r : Reg} (hop : s.nextOp = .cycle) (hmode : s.mode = .awaitingKey r) : StepCase s (.next s.begin)
  | faulted {c : Fault} (hop : s.nextOp = .cycle) (hmode : s.mode = .faulted c) : StepCase s (.fault c)
  | aboveTop (hop : s.nextOp = .cycle) (hmode : s.mode = .running) (hpc : 0xFFE < s.pc.toNat) :
      StepCase s (.fault .addressOutOfRange)
  | executed {op : Word} {r : Result} (hfetch : s.Fetches op) (hexec : exec (decode op) s.fetched = r) : StepCase s r

theorem stepCase_of_eq {r : Result} (h : step s = r) : StepCase s r := by
  subst h
  cases hop : s.nextOp with
  | reset => exact step_reset hop ▸ .reset hop
  | loadProgram bytes => exact step_loadProgram hop ▸ .loadProgram hop
  | tickTimers => exact step_tickTimers hop ▸ .tickTimers hop
  | keyEvent k => exact step_keyEvent hop ▸ .keyEvent hop
  | cycle =>
    cases hmode : s.mode with
    | awaitingKey r => exact step_awaiting hop hmode ▸ .awaiting hop hmode
    | faulted c => exact step_faulted hop hmode ▸ .faulted hop hmode
    | running =>
      by_cases hpc : 0xFFE < s.pc.toNat
      · exact step_above_top hop hmode hpc ▸ .aboveTop hop hmode hpc
      · obtain ⟨op, hfetch⟩ := exists_fetches hop hmode (not_lt.1 hpc)
        exact .executed hfetch (step_of_fetches hfetch).symm

/-- The frame of the beginning of an operation: the report and the script. -/
theorem onlyChanges_begin (s : State) : OnlyChanges [.report, .script] s s.begin := by
  intro p hp
  cases p with
  | report => exact absurd (by simp) hp
  | script => exact absurd (by simp) hp
  | answers => exact ⟨rfl, rfl, rfl⟩
  | _ => rfl

end Sys2Proof.Machine
end

section
/-! The `Cycle` (R91 to R95): the fetch, the instruction executed, and the modes in which none is. -/

namespace Sys2Proof

open Machine

/-- Settles O7: the step of a fetch, whose begun state is written out. -/
theorem stepRunsTheDecoded : Obligations.StepRunsTheDecoded := by
  rintro s op i hfetch rfl -
  exact step_of_fetches hfetch

/-- Settles O8: the word at `PC` reaches address `PC + 1`, so the fetch is inside the address space up to `0xFFE`. -/
theorem fetchAboveTheTopFaults : Obligations.FetchAboveTheTopFaults := by
  refine ⟨fun s hop hmode hpc => ⟨fetch_error s ?_, step_above_top hop hmode hpc⟩, fun s hop hmode hpc => ?_⟩
  · simp only [memSize]
    omega
  · obtain ⟨op, hfetch⟩ := exists_fetches hop hmode hpc
    exact ⟨op, hfetch, fetch_of_fetches hfetch, step_of_fetches hfetch⟩

/-- Settles O9: neither mode fetches. -/
theorem idleCycles : Obligations.IdleCycles :=
  ⟨fun s _ hop hmode => ⟨_, step_awaiting hop hmode, onlyChanges_begin s⟩,
    fun _ _ hop hmode => step_faulted hop hmode⟩

/-- The fault table looks at the depth and at `I` alone, which the fetch leaves. -/
theorem faultOf_fetched (i : Instr) (s : State) : faultOf i s.fetched = faultOf i s := rfl

/-- The frame table looks at the depth and at `I` alone, which the fetch leaves. -/
theorem writes_fetched (i : Instr) (s : State) : writes i s.fetched = writes i s := rfl

/-- The frame of a `Cycle` that executed an instruction, from the state with `PC` advanced. -/
theorem keeps_of_executed {s t : State} {op : Word} {p : Part} (hexec : exec (decode op) s.fetched = .next t)
    (hp : p ∉ writes (decode op) s) : keeps p s.fetched t :=
  exec_frame hexec p (by rwa [writes_fetched])

/-- Settles O10: the frame of the instruction leaves the `PC` that the fetch advanced. -/
theorem pcAdvancesByTwo : Obligations.PcAdvancesByTwo := by
  intro s t op hfetch hpc h
  have hkeep : t.pc = s.pc + 2 := keeps_of_executed ((step_of_fetches hfetch).symm.trans h) hpc
  rw [hkeep, toNat_advanced_pc hfetch]

/-- Settles O50: by what the step can do; the instruction's fault is the table's. -/
theorem stepFaultsExactly : Obligations.StepFaultsExactly := by
  intro s f
  constructor
  · intro h
    cases stepCase_of_eq h with
    | faulted hop hmode => exact ⟨hop, .inl hmode⟩
    | aboveTop hop hmode hpc => exact ⟨hop, .inr (.inl ⟨hmode, hpc, rfl⟩)⟩
    | executed hfetch hexec =>
      rw [exec_fault_iff, faultOf_fetched] at hexec
      obtain ⟨hop, -⟩ := fetches_iff.1 hfetch
      exact ⟨hop, .inr (.inr ⟨_, hfetch, hexec⟩)⟩
  · rintro ⟨hop, hmode | ⟨hmode, hpc, rfl⟩ | ⟨op, hfetch, hfault⟩⟩
    · exact step_faulted hop hmode
    · exact step_above_top hop hmode hpc
    · rw [step_of_fetches hfetch, exec_fault_iff, faultOf_fetched, hfault]

/-- Settles O51: an operation of the host answers a state, and no instruction is refused. -/
theorem stepNeverRefuses : Obligations.StepNeverRefuses := by
  intro s q h
  cases stepCase_of_eq h with
  | executed _ hexec => exact exec_ne_refused _ _ q hexec

end Sys2Proof
end

section
/-! The host's operations (R164, R177, R182, R195 to R198): what each leaves, by the mode. -/

namespace Sys2Proof.Machine

variable {s : State}

theorem hostLoadProgram_faulted {c : Fault} (h : s.mode = .faulted c) (bytes : List Byte) :
    hostLoadProgram bytes s = s := by
  rw [hostLoadProgram, h]

theorem hostTickTimers_faulted {c : Fault} (h : s.mode = .faulted c) : hostTickTimers s = s := by
  rw [hostTickTimers, h]

theorem hostKeyEvent_awaiting {r : Reg} (h : s.mode = .awaitingKey r) (k : Key) :
    hostKeyEvent k s = (s.setV r (BitVec.ofNat 8 k.val)).setMode .running := by
  rw [hostKeyEvent, h]

theorem hostKeyEvent_not_awaiting (h : ∀ r, s.mode ≠ .awaitingKey r) (k : Key) : hostKeyEvent k s = s := by
  cases hmode : s.mode with
  | awaitingKey r => exact absurd hmode (h r)
  | running | faulted => rw [hostKeyEvent, hmode]

/-- A load places the image, or reports it too large, or does nothing. -/
theorem hostLoadProgram_cases (bytes : List Byte) (s : State) :
    (bytes.length ≤ progCapacity ∧ hostLoadProgram bytes s = { s with mem := placeBytes progBase bytes s.mem }) ∨
      hostLoadProgram bytes s = s.setReport (.failed .programTooLarge) ∨ hostLoadProgram bytes s = s := by
  by_cases hmode : ∀ c, s.mode ≠ .faulted c
  · by_cases hsize : bytes.length ≤ progCapacity
    · exact .inl ⟨hsize, hostLoadProgram_ok hmode hsize⟩
    · exact .inr (.inl (hostLoadProgram_tooLarge hmode (not_le.1 hsize)))
  · obtain ⟨c, hc⟩ := not_forall_not.1 hmode
    exact .inr (.inr (hostLoadProgram_faulted hc bytes))

/-- A tick writes the two timers or does nothing. -/
theorem hostTickTimers_cases (s : State) :
    hostTickTimers s = (s.setDt (tickDown s.dt)).setSt (tickDown s.st) ∨ hostTickTimers s = s := by
  by_cases hmode : ∀ c, s.mode ≠ .faulted c
  · exact .inl (hostTickTimers_ok hmode)
  · obtain ⟨c, hc⟩ := not_forall_not.1 hmode
    exact .inr (hostTickTimers_faulted hc)

/-- A key event ends a key wait or does nothing. -/
theorem hostKeyEvent_cases (k : Key) (s : State) :
    (∃ r, s.mode = .awaitingKey r ∧ hostKeyEvent k s = (s.setV r (BitVec.ofNat 8 k.val)).setMode .running) ∨
      hostKeyEvent k s = s := by
  by_cases hmode : ∀ r, s.mode ≠ .awaitingKey r
  · exact .inr (hostKeyEvent_not_awaiting hmode k)
  · obtain ⟨r, hr⟩ := not_forall_not.1 hmode
    exact .inl ⟨r, hr, hostKeyEvent_awaiting hr k⟩

end Sys2Proof.Machine
end

section
/-! Which instructions may write a part of the state that few of them write (Table 30-2), and what those do to it. -/

namespace Sys2Proof.Machine

variable {i : Instr} {s t : State}

@[simp] theorem mem_bytesAtI_iff {p : Part} {n : Nat} : p ∈ s.bytesAtI n ↔ ∃ k, k < n ∧ p = .mem (s.ea k) := by
  simp only [State.bytesAtI, List.mem_map, List.mem_range, eq_comm]

@[simp] theorem mem_regParts_iff {p : Part} {x : Reg} : p ∈ regParts x ↔ ∃ r, r ≤ x ∧ p = .v r := by
  simp [regParts, eq_comm]

@[simp] theorem mem_nextEntry_iff {p : Part} :
    p ∈ s.nextEntry ↔ ∃ h : s.depth.val < 16, p = .entry ⟨s.depth.val, h⟩ := by
  unfold State.nextEntry
  split <;> simp [*]

theorem ldDtVx_of_dt_mem_writes (h : Part.dt ∈ writes i s) : ∃ x, i = .ldDtVx x := by
  cases i with
  | ldDtVx x => exact ⟨x, rfl⟩
  | _ => simp [writes] at h

theorem ldStVx_of_st_mem_writes (h : Part.st ∈ writes i s) : ∃ x, i = .ldStVx x := by
  cases i with
  | ldStVx x => exact ⟨x, rfl⟩
  | _ => simp [writes] at h

theorem ldVxK_of_mode_mem_writes (h : Part.mode ∈ writes i s) : ∃ x, i = .ldVxK x := by
  cases i with
  | ldVxK x => exact ⟨x, rfl⟩
  | _ => simp [writes] at h

/-- The two display instructions (R156). -/
theorem display_of_report_mem_writes (h : Part.report ∈ writes i s) : i = .cls ∨ ∃ x y n, i = .drw x y n := by
  cases i with
  | cls => exact .inl rfl
  | drw x y n => exact .inr ⟨x, y, n, rfl⟩
  | _ => simp [writes] at h

/-- The three instructions that ask the host (R96). -/
theorem query_of_answers_mem_writes (h : Part.answers ∈ writes i s) :
    (∃ x, i = .skp x) ∨ (∃ x, i = .sknp x) ∨ ∃ x nn, i = .rnd x nn := by
  cases i with
  | skp x => exact .inl ⟨x, rfl⟩
  | sknp x => exact .inr (.inl ⟨x, rfl⟩)
  | rnd x nn => exact .inr (.inr ⟨x, nn, rfl⟩)
  | _ => simp [writes] at h

theorem cfg_not_mem_writes : Part.cfg ∉ writes i s := by
  cases i with
  | _ => simp [writes]

theorem exec_cfg (h : exec i s = .next t) : t.cfg = s.cfg := exec_frame h .cfg cfg_not_mem_writes

/-- An instruction leaves the mode, or begins a key wait. -/
theorem exec_mode (h : exec i s = .next t) : t.mode = s.mode ∨ ∃ x, t.mode = .awaitingKey x := by
  by_cases hmode : Part.mode ∈ writes i s
  · obtain ⟨x, rfl⟩ := ldVxK_of_mode_mem_writes hmode
    obtain rfl := Host.Outcome.next.inj h
    exact .inr ⟨x, rfl⟩
  · exact .inl (exec_frame h .mode hmode)

/-- A query moves the free values on by one. -/
theorem exec_draws_of_answers (h : exec i s = .next t) (hi : Part.answers ∈ writes i s) :
    t.env.draws = s.env.draws + 1 := by
  obtain ⟨x, rfl⟩ | ⟨x, rfl⟩ | ⟨x, nn, rfl⟩ := query_of_answers_mem_writes hi
  all_goals
    obtain rfl := Host.Outcome.next.inj h
    rfl

theorem exec_report_of_display (h : exec i s = .next t) (hi : i = .cls ∨ ∃ x y n, i = .drw x y n) :
    t.report = .frameUpdated := by
  obtain rfl | ⟨x, y, n, rfl⟩ := hi
  · obtain rfl := Host.Outcome.next.inj h
    rfl
  · obtain ⟨-, rfl⟩ := execDrw_next h
    rfl

end Sys2Proof.Machine
end

section
/-! What every step keeps: the configuration, the timers during a `Cycle`, the report, the fault, the host's answers. -/

namespace Sys2Proof

open Machine

/-- An operation other than a `Cycle` fetches nothing. -/
theorem not_fetches {s : State} (h : s.nextOp ≠ .cycle) (op : Word) : ¬ s.Fetches op := by
  rintro ⟨hop, -⟩
  exact h hop

/-- Settles O41: a begun operation has the timers it began with, and an instruction writes one only as the frame table
says. -/
theorem cyclesNeverTick : Obligations.CyclesNeverTick := by
  intro s t hop h
  cases stepCase_of_eq h with
  | awaiting => exact ⟨fun hne => absurd rfl hne, fun hne => absurd rfl hne⟩
  | @executed op _ hfetch hexec =>
    refine ⟨fun hne => ⟨op, ?_⟩, fun hne => ⟨op, ?_⟩⟩
    · have hdt : Part.dt ∈ writes (decode op) s := by_contra fun hnot => hne (keeps_of_executed hexec hnot)
      obtain ⟨x, hx⟩ := ldDtVx_of_dt_mem_writes hdt
      exact ⟨x, hfetch, hx⟩
    · have hst : Part.st ∈ writes (decode op) s := by_contra fun hnot => hne (keeps_of_executed hexec hnot)
      obtain ⟨x, hx⟩ := ldStVx_of_st_mem_writes hst
      exact ⟨x, hfetch, hx⟩
  | reset hop' | loadProgram hop' | tickTimers hop' | keyEvent hop' => cases hop.symm.trans hop'

theorem hostLoadProgram_report (bytes : List Byte) (s : State) :
    (hostLoadProgram bytes s.begin).report ≠ .frameUpdated := by
  obtain ⟨-, h⟩ | h | h := hostLoadProgram_cases bytes s.begin
  all_goals simp [h]

theorem hostTickTimers_report (s : State) : (hostTickTimers s).report = s.report := by
  obtain h | h := hostTickTimers_cases s
  all_goals simp [h]

theorem hostKeyEvent_report (k : Key) (s : State) : (hostKeyEvent k s).report = s.report := by
  obtain ⟨r, -, h⟩ | h := hostKeyEvent_cases k s
  all_goals simp [h]

/-- Settles O52: only the two display instructions write the report of a begun `Cycle`, and they report
`FrameUpdated`. -/
theorem frameUpdatedExactly : Obligations.FrameUpdatedExactly := by
  intro s t h
  have hidle (hreport : t.report ≠ .frameUpdated) (hnot : ∀ op, ¬ s.Fetches op) :
      t.report = .frameUpdated ↔ ∃ op, s.Fetches op ∧ (decode op = .cls ∨ ∃ x y n, decode op = .drw x y n) :=
    iff_of_false hreport fun ⟨op, hfetch, _⟩ => hnot op hfetch
  cases stepCase_of_eq h with
  | reset hop => exact hidle (by simp [hostReset]) (not_fetches (by simp [hop]))
  | loadProgram hop => exact hidle (hostLoadProgram_report _ s) (not_fetches (by simp [hop]))
  | tickTimers hop => exact hidle (by simp [hostTickTimers_report]) (not_fetches (by simp [hop]))
  | keyEvent hop => exact hidle (by simp [hostKeyEvent_report]) (not_fetches (by simp [hop]))
  | awaiting hop hmode => exact hidle (by simp) fun op hfetch => by simp [fetches_iff, hmode] at hfetch
  | @executed op _ hfetch hexec =>
    constructor
    · intro hreport
      refine ⟨op, hfetch, display_of_report_mem_writes (s := s) (by_contra fun hnot => ?_)⟩
      have hkeep : t.report = .completed := keeps_of_executed hexec hnot
      cases hkeep.symm.trans hreport
    · rintro ⟨op', hfetch', hdisplay⟩
      obtain rfl := fetches_unique hfetch hfetch'
      exact exec_report_of_display hexec hdisplay

/-- Settles O53: no operation writes the configuration; besides `Reset`, which runs the machine, an operation leaves the
mode, or begins or ends a key wait. -/
theorem configurationAndFaultStay : Obligations.ConfigurationAndFaultStay := by
  intro s t h
  cases stepCase_of_eq h with
  | reset hop => exact ⟨rfl, fun c => ⟨nofun, fun _ => .inr hop⟩⟩
  | @loadProgram bytes =>
    obtain ⟨-, ht⟩ | ht | ht := hostLoadProgram_cases bytes s.begin
    all_goals
      rw [ht]
      exact ⟨rfl, fun c => ⟨id, .inl⟩⟩
  | tickTimers =>
    obtain ht | ht := hostTickTimers_cases s.begin
    all_goals
      rw [ht]
      exact ⟨rfl, fun c => ⟨id, .inl⟩⟩
  | @keyEvent k =>
    obtain ⟨r, hr, ht⟩ | ht := hostKeyEvent_cases k s.begin
    · rw [ht]
      exact ⟨rfl, fun c => ⟨nofun, fun hc => by cases hr.symm.trans hc⟩⟩
    · rw [ht]
      exact ⟨rfl, fun c => ⟨id, .inl⟩⟩
  | awaiting => exact ⟨rfl, fun c => ⟨id, .inl⟩⟩
  | executed hfetch hexec =>
    obtain ⟨-, hmode, -⟩ := fetches_iff.1 hfetch
    have hcfg : t.cfg = s.fetched.cfg := exec_cfg hexec
    refine ⟨hcfg, fun c => ⟨fun hc => ?_, fun hc => by cases hmode.symm.trans hc⟩⟩
    obtain ht | ⟨x, ht⟩ := exec_mode hexec
    · exact ht.symm.trans hc
    · cases ht.symm.trans hc

/-- The word `0x1000 + pc` is a jump to `pc` (R102). -/
theorem decode_jump_to {op pc : Word} (hpc : pc.toNat ≤ 0xFFE) (hop : op.toNat = 0x1000 + pc.toNat) :
    decode op = .jp (fieldNNN op) ∧ addr12 (fieldNNN op) = pc := by
  constructor
  · have hfamily : op.toNat / 4096 * 4096 = 0x1000 := by omega
    obtain ⟨hjp, -⟩ := jumpsSetThePc
    exact hjp op (BitVec.eq_of_toNat_eq ((Laws.toNat_mask_family op).trans hfamily))
  · apply BitVec.eq_of_toNat_eq
    rw [toNat_addr12, fieldNNN, BitVec.toNat_ofNat, hop]
    omega

/-- Settles O54: the word is a jump to `PC`, and the jump undoes the advance of the fetch. -/
theorem selfJumpIsIdle : Obligations.SelfJumpIsIdle := by
  rintro s ⟨hmode, hpc, hword⟩ hcycle
  obtain ⟨op, hfetch⟩ := exists_fetches hcycle hmode hpc
  have hop : op.toNat = 0x1000 + s.pc.toNat := by
    obtain ⟨-, -, -, hbytes⟩ := hfetch
    exact hbytes.trans hword
  obtain ⟨hjump, hback⟩ := decode_jump_to hpc hop
  refine ⟨s.begin, ?_, onlyChanges_begin s⟩
  calc step s = exec (.jp (fieldNNN op)) s.fetched := hjump ▸ step_of_fetches hfetch
    _ = .next (s.begin.setPc (addr12 (fieldNNN op))) := rfl
    _ = .next s.begin := by rw [hback]; rfl

/-- Settles O55: the frame table lets three instructions write the host's answers, and each of them answers one
query. -/
theorem oneQueryAtMost : Obligations.OneQueryAtMost := by
  intro i s t h
  by_cases hi : Part.answers ∈ writes i s
  · exact ⟨.inr (exec_draws_of_answers h hi), fun _ => query_of_answers_mem_writes hi⟩
  · have hkeep : keeps .answers s t := exec_frame h .answers hi
    exact ⟨.inl hkeep, fun hnot => absurd hkeep hnot⟩

end Sys2Proof
end

section
/-! The invariant (R25, R50): canonical memory, `PC` at most `0x10FE`, live return addresses at most `0x1000`. -/

namespace Sys2Proof.Machine

variable {i : Instr} {s t : State}

/-- Every live return address is at most `0x1000` (R25). -/
def State.ReturnsLow (s : State) : Prop := ∀ j : Fin 16, j.val < s.depth.val → (s.stack[j.val]).toNat ≤ 0x1000

theorem inv_iff : s.Inv ↔
    Memory.wf s.mem ∧ Memory.wf s.cfg.resetMem ∧ s.pc.toNat ≤ 0x10FE ∧ s.ReturnsLow := Iff.rfl

/-! ### Memory -/

theorem exec_keeps_wf (h : exec i s = .next t) (hm : Memory.wf s.mem) : Memory.wf t.mem := by
  cases i with
  | ldB x =>
    obtain ⟨hin, rfl⟩ := execLdB_next h
    refine wf_placeBytes _ hm ?_
    simp only [bcdDigits_length, State.ea] at hin ⊢
    omega
  | stRegs x =>
    obtain ⟨hin, rfl⟩ := execStRegs_next h
    exact wf_storeRegs _ _ hm (regsUpTo_inside (Nat.le_of_lt_succ hin))
  | ldRegs x =>
    obtain ⟨-, hrest, -⟩ := execLdRegs_next h
    rw [hrest]
    exact hm
  | drw x y n =>
    obtain ⟨-, rfl⟩ := execDrw_next h
    exact hm
  | call nnn =>
    obtain ⟨-, rfl⟩ := execCall_next h
    exact hm
  | ret =>
    obtain ⟨-, rfl⟩ := execRet_next h
    exact hm
  | _ =>
    obtain rfl := Host.Outcome.next.inj h
    exact hm

/-! ### The program counter -/

theorem toNat_skipIf_pc_le (c : Bool) (hpc : s.pc.toNat ≤ 0x1000) : (s.skipIf c).pc.toNat ≤ 0x1002 := by
  cases c
  · exact hpc.trans (by decide)
  · have hadd : (s.pc + 2).toNat = s.pc.toNat + 2 := BitVec.toNat_add_of_lt (by
      change s.pc.toNat + 2 < 65536
      omega)
    exact hadd.trans_le (Nat.add_le_add_right hpc 2)

/-- From an advanced `PC` of at most `0x1000`: a skip goes to `0x1002` at most, a jump with offset to `0x10FE` (R25). -/
theorem exec_pc_le (h : exec i s = .next t) (hpc : s.pc.toNat ≤ 0x1000) (hlow : s.ReturnsLow) :
    t.pc.toNat ≤ 0x10FE := by
  have hskip {c : Bool} {u : State} (hu : u.pc = s.pc) : (u.skipIf c).pc.toNat ≤ 0x10FE :=
    (toNat_skipIf_pc_le c (hu ▸ hpc)).trans (by decide)
  cases i with
  | jp nnn =>
    obtain rfl := Host.Outcome.next.inj h
    rw [State.setPc_pc, toNat_addr12]
    omega
  | jpV0 nnn =>
    obtain rfl := Host.Outcome.next.inj h
    rw [State.setPc_pc, toNat_addr12_add_zext16]
    omega
  | call nnn =>
    obtain ⟨-, rfl⟩ := execCall_next h
    change (addr12 nnn).toNat ≤ 0x10FE
    rw [toNat_addr12]
    omega
  | ret =>
    obtain ⟨hd, rfl⟩ := execRet_next h
    exact (hlow ⟨s.depth.val - 1, by omega⟩ (by dsimp only; omega)).trans (by decide)
  | seImm | sneImm | seReg | sneReg | skp | sknp =>
    obtain rfl := Host.Outcome.next.inj h
    exact hskip rfl
  | _ =>
    have hkeep : t.pc = s.pc := exec_frame h .pc (by simp [writes])
    rw [hkeep]
    omega

/-! ### The return stack -/

theorem returnsLow_congr (hd : t.depth = s.depth) (hstack : t.stack = s.stack) (hlow : s.ReturnsLow) :
    t.ReturnsLow := by
  unfold State.ReturnsLow
  rw [hd, hstack]
  exact hlow

theorem returnsLow_pushed {w : Word} (hd : s.depth.val < 16) (hw : w.toNat ≤ 0x1000) (hlow : s.ReturnsLow) :
    (s.pushed w hd).ReturnsLow := by
  intro j hj
  have hle : j.val < s.depth.val + 1 := hj
  change (s.stack.set s.depth.val w hd)[j.val].toNat ≤ 0x1000
  by_cases htop : j.val = s.depth.val
  · simpa [htop] using hw
  · rw [Vector.getElem_set_ne _ _ (Ne.symm htop)]
    exact hlow j (by omega)

theorem returnsLow_popped (hlow : s.ReturnsLow) : s.popped.ReturnsLow := fun j hj =>
  hlow j (Nat.lt_of_lt_of_le hj (Nat.sub_le _ _))

theorem exec_keeps_returnsLow (h : exec i s = .next t) (hpc : s.pc.toNat ≤ 0x1000) (hlow : s.ReturnsLow) :
    t.ReturnsLow := by
  cases i with
  | call nnn =>
    obtain ⟨hd, rfl⟩ := execCall_next h
    exact returnsLow_pushed hd hpc hlow
  | ret =>
    obtain ⟨-, rfl⟩ := execRet_next h
    exact returnsLow_popped hlow
  | _ =>
    have hd : t.depth = s.depth := exec_frame h .sp (by simp [writes])
    have hstack : t.stack = s.stack := Vector.ext fun j hj => exec_frame h (.entry ⟨j, hj⟩) (by simp [writes])
    exact returnsLow_congr hd hstack hlow

/-! ### The step -/

theorem exec_keeps_inv (h : exec i s = .next t) (hpc : s.pc.toNat ≤ 0x1000) (hs : s.Inv) : t.Inv := by
  obtain ⟨hm, hreset, -, hlow⟩ := inv_iff.1 hs
  exact inv_iff.2
    ⟨exec_keeps_wf h hm, exec_cfg h ▸ hreset, exec_pc_le h hpc hlow, exec_keeps_returnsLow h hpc hlow⟩

theorem inv_fetched {op : Word} (hfetch : s.Fetches op) (hs : s.Inv) :
    s.fetched.pc.toNat ≤ 0x1000 ∧ s.fetched.Inv := by
  obtain ⟨hm, hreset, -, hlow⟩ := inv_iff.1 hs
  obtain ⟨-, -, hpc, -⟩ := fetches_iff.1 hfetch
  have hadd : s.fetched.pc.toNat = s.pc.toNat + 2 := toNat_advanced_pc hfetch
  exact ⟨by omega, inv_iff.2 ⟨hm, hreset, by omega, hlow⟩⟩

theorem inv_hostReset (hs : s.Inv) : (hostReset s).Inv := by
  obtain ⟨-, hreset, -, -⟩ := inv_iff.1 hs
  have hbase : (BitVec.ofNat 16 progBase).toNat ≤ 0x10FE := by decide
  exact inv_iff.2 ⟨hreset, hreset, hbase, fun j hj => absurd hj (Nat.not_lt_zero _)⟩

theorem inv_hostLoadProgram (bytes : List Byte) (hs : s.Inv) : (hostLoadProgram bytes s).Inv := by
  obtain ⟨hm, hreset, hpc, hlow⟩ := inv_iff.1 hs
  obtain ⟨hsize, h⟩ | h | h := hostLoadProgram_cases bytes s
  · have hin : progBase + bytes.length ≤ memSize := by
      simp only [progBase, memSize, progCapacity] at hsize ⊢
      omega
    rw [h]
    exact inv_iff.2 ⟨wf_placeBytes bytes hm hin, hreset, hpc, hlow⟩
  all_goals
    rw [h]
    exact hs

theorem inv_hostTickTimers (hs : s.Inv) : (hostTickTimers s).Inv := by
  obtain h | h := hostTickTimers_cases s
  all_goals
    rw [h]
    exact hs

theorem inv_hostKeyEvent (k : Key) (hs : s.Inv) : (hostKeyEvent k s).Inv := by
  obtain ⟨r, -, h⟩ | h := hostKeyEvent_cases k s
  all_goals
    rw [h]
    exact hs

end Sys2Proof.Machine

namespace Sys2Proof

open Machine

/-- Settles O46: each operation keeps the invariant, an instruction from the `PC` of at most `0x1000` that a fetch
leaves. -/
theorem stepKeepsInvariant : Obligations.StepKeepsInvariant := by
  intro s t hs h
  have hbegin : s.begin.Inv := hs
  cases stepCase_of_eq h with
  | reset => exact inv_hostReset hbegin
  | loadProgram => exact inv_hostLoadProgram _ hbegin
  | tickTimers => exact inv_hostTickTimers hbegin
  | keyEvent => exact inv_hostKeyEvent _ hbegin
  | awaiting => exact hbegin
  | executed hfetch hexec =>
    obtain ⟨hpc, hfetched⟩ := inv_fetched hfetch hs
    exact exec_keeps_inv hexec hpc hfetched

/-- Settles O47: memory lists nothing, `PC` is `0x200`, and no entry is live. -/
theorem resetHasInvariant : Obligations.ResetHasInvariant :=
  inv_iff.2 ⟨Memory.wf_nil, Memory.wf_nil, by decide, fun _ hj => absurd hj (Nat.not_lt_zero _)⟩

end Sys2Proof
end

section
/-! The five instructions that write a flag and then a result (R126 to R130), the random byte (R131), and a call with
the return from it. -/

namespace Sys2Proof

open Machine Laws

/-! ### The flags as the statements write them -/

theorem b2i_decide (c : Prop) [Decidable c] : b2i (decide c) = if c then 1 else 0 := by
  by_cases h : c <;> simp [b2i, h]

theorem lowBitFlag_eq (a : Byte) : lowBitFlag a = BitVec.ofNat 8 (a.toNat % 2) := by
  revert a
  decide

theorem highBitFlag_eq (a : Byte) : highBitFlag a = BitVec.ofNat 8 (a.toNat / 128) := by
  revert a
  decide

/-! ### The results as the statements write them -/

theorem toNat_sub_byte (a b : Byte) :
    (a - b).toNat = if a.toNat ≥ b.toNat then a.toNat - b.toNat else a.toNat + 256 - b.toNat := by
  rw [BitVec.toNat_sub]
  split <;> omega

theorem toNat_shiftRight_one (a : Byte) : (a >>> 1).toNat = a.toNat / 2 := by
  rw [BitVec.toNat_ushiftRight, Nat.shiftRight_one]

theorem toNat_shiftLeft_one (a : Byte) : (a <<< 1).toNat = 2 * a.toNat % 256 := by
  rw [BitVec.toNat_shiftLeft, Nat.shiftLeft_eq, Nat.mul_comm]

/-! ### Flag, then result -/

/-- The destination holds the result of the operands as the flag write left them (R9). -/
theorem flagThenResult_result (flag result : Byte → Byte → Byte) (x a b : Reg) (s : State) :
    (flagThenResult flag result x a b s).getV x =
      result (if a = 15 then flag (s.getV a) (s.getV b) else s.getV a)
        (if b = 15 then flag (s.getV a) (s.getV b) else s.getV b) := by
  rw [flagThenResult_getV, if_pos rfl]

/-- `VF` holds the flag where it is not the destination. -/
theorem flagThenResult_flag (flag result : Byte → Byte → Byte) {x : Reg} (a b : Reg) (s : State) (hx : x ≠ 15) :
    (flagThenResult flag result x a b s).getV 15 = flag (s.getV a) (s.getV b) := by
  rw [flagThenResult_getV, if_neg hx.symm, if_pos rfl]

/-- Settles O19: the carry is the comparison of the true sum, and the sum of bytes is modulo 256. -/
theorem addWritesCarryThenSum : Obligations.AddWritesCarryThenSum := by
  refine ⟨encodes_of_family_last fun op hf hn => ?_, fun s x y => ?_⟩
  · simp [decodeByFamily, decodeAlu, hf, hn]
  · intro c a b
    have hc : carryFlag (s.getV x) (s.getV y) = c := b2i_decide _
    refine ⟨_, rfl, ?_, fun hx => (flagThenResult_flag _ _ x y s hx).trans hc,
      onlyChanges_flagThenResult _ _ x x y s⟩
    rw [flagThenResult_result, hc]
    exact BitVec.toNat_add a b

/-- Settles O20: the no-borrow flag is the weak comparison, and the difference of bytes borrows 256. -/
theorem subWritesNoBorrowThenDifference : Obligations.SubWritesNoBorrowThenDifference := by
  refine ⟨encodes_of_family_last fun op hf hn => ?_, fun s x y => ?_⟩
  · simp [decodeByFamily, decodeAlu, hf, hn]
  · intro c a b
    have hc : noBorrowFlag (s.getV x) (s.getV y) = c := b2i_decide _
    refine ⟨_, rfl, ?_, fun hx => (flagThenResult_flag _ _ x y s hx).trans hc,
      onlyChanges_flagThenResult _ _ x x y s⟩
    rw [flagThenResult_result, hc]
    exact toNat_sub_byte a b

/-- Settles O21: the flag is the strict comparison, and the operands are the other way round. -/
theorem subnWritesStrictFlagThenDifference : Obligations.SubnWritesStrictFlagThenDifference := by
  refine ⟨encodes_of_family_last fun op hf hn => ?_, fun s x y => ?_⟩
  · simp [decodeByFamily, decodeAlu, hf, hn]
  · intro c a b
    have hc : greaterFlag (s.getV y) (s.getV x) = c := b2i_decide _
    refine ⟨_, rfl, ?_, fun hx => (flagThenResult_flag _ _ y x s hx).trans hc,
      onlyChanges_flagThenResult _ _ x y x s⟩
    rw [flagThenResult_result, hc]
    exact toNat_sub_byte b a

theorem shiftSource_eq (m : ShiftMode) (x y : Reg) : shiftSource m x y = if m = .vxInplace then x else y := by
  cases m <;> rfl

/-- Settles O22: the operand is the register the shift mode names; halving a byte is a shift by one. -/
theorem shiftRightByOne : Obligations.ShiftRightByOne := by
  refine ⟨encodes_of_family_last fun op hf hn => ?_, fun s x y => ?_⟩
  · simp [decodeByFamily, decodeAlu, hf, hn]
  · intro z c a
    have hz : shiftSource s.cfg.shiftMode x y = z := shiftSource_eq _ x y
    have hc : lowBitFlag (s.getV z) = c := lowBitFlag_eq _
    refine ⟨_, rfl, ?_, fun hx => ?_, onlyChanges_flagThenResult _ _ x _ _ s⟩
    · rw [flagThenResult_result, hz, hc]
      exact toNat_shiftRight_one a
    · rw [flagThenResult_flag _ _ _ _ s hx, hz, hc]

/-- Settles O23: the operand is the register the shift mode names; doubling a byte is a shift by one. -/
theorem shiftLeftByOne : Obligations.ShiftLeftByOne := by
  refine ⟨encodes_of_family_last fun op hf hn => ?_, fun s x y => ?_⟩
  · simp [decodeByFamily, decodeAlu, hf, hn]
  · intro z c a
    have hz : shiftSource s.cfg.shiftMode x y = z := shiftSource_eq _ x y
    have hc : highBitFlag (s.getV z) = c := highBitFlag_eq _
    refine ⟨_, rfl, ?_, fun hx => ?_, onlyChanges_flagThenResult _ _ x _ _ s⟩
    · rw [flagThenResult_result, hz, hc]
      exact toNat_shiftLeft_one a
    · rw [flagThenResult_flag _ _ _ _ s hx, hz, hc]

/-- Settles O24: the masked byte bit by bit; a scripted byte is the one the query answers. -/
theorem randomByteUnderMask : Obligations.RandomByteUnderMask := by
  refine ⟨encodes_of_family fun op hf => ?_, fun s x nn => ⟨_, rfl, fun k => ?_, ?_⟩, fun s r rest h => ?_⟩
  · simp [decodeByFamily, hf]
  · rw [State.getV_setV_same, BitVec.getLsbD_and]
  · exact exec_frame (i := .rnd x nn) rfl
  · rw [State.randomByte, h]

/-- Settles O16: the return finds at the top of the stack the `PC` the call pushed there, over the entries below. -/
theorem callThenReturn : Obligations.CallThenReturn := by
  intro s t u nnn hcall hdepth hstack
  obtain ⟨hd, rfl⟩ := execCall_next hcall
  have htop : u.depth.val = s.depth.val + 1 := congrArg Fin.val hdepth
  refine ⟨_, execRet_ok u ⟨s.depth.val, hd⟩ htop, ?_, Fin.ext ?_, fun j hj => ?_⟩
  · simp [hstack]
  · simp [State.popped, htop]
  · simp [State.popped, hstack, Vector.getElem_set_ne _ _ (Nat.ne_of_gt hj)]

end Sys2Proof
end

section
/-! Store and load back (R144, R145), and a store over the next instruction (R64). -/

namespace Sys2Proof

open Machine

/-- A completed store was inside the address space. -/
theorem storedRegs_of_next {s t : State} {x : Reg} (h : exec (.stRegs x) s = .next t) :
    s.ea x.val ≤ 0xFFF ∧ t = s.storedRegs x := by
  obtain ⟨hin, rfl⟩ := execStRegs_next h
  exact ⟨Nat.le_of_lt_succ hin, rfl⟩

/-- Settles O30: the load reads, from the same `I` on, the bytes the store left there. -/
theorem storeThenLoadReturns : Obligations.StoreThenLoadReturns := by
  intro s t u x hstore hi hmem
  obtain ⟨hin, rfl⟩ := storedRegs_of_next hstore
  have hea (k : Nat) : u.ea k = s.ea k := congrArg (fun w : Word => w.toNat + k) hi
  have hbyte (a : Nat) : u.byteAt a = (s.storedRegs x).byteAt a := congrArg (Memory.lookup · a) hmem
  obtain ⟨w, hload, -, hregs⟩ := execLdRegs_ok u x (hea x.val ▸ hin)
  refine ⟨w, hload, fun r hr => ?_, fun r hr => ?_⟩
  · rw [hregs, if_pos hr, hea, hbyte, byteAt_storedRegs s hr]
  · rw [hregs, if_neg (not_le.2 hr)]

/-- Settles O31: the two bytes at `PC` are the stored `V0` and `V1`, and the next fetch reads them. -/
theorem storedWordIsExecuted : Obligations.StoredWordIsExecuted := by
  intro s t x hstore hx hpc hmode hop
  obtain ⟨hin, rfl⟩ := storedRegs_of_next hstore
  have hbyte {r : Reg} (hr : r ≤ x) : (s.storedRegs x).byteAt (s.pc.toNat + r.val) = s.getV r :=
    hpc ▸ byteAt_storedRegs s hr
  have hhi : (s.storedRegs x).byteAt s.pc.toNat = s.getV 0 := hbyte (r := 0) (Fin.zero_le x)
  have hlo : (s.storedRegs x).byteAt (s.pc.toNat + 1) = s.getV 1 := hbyte (r := 1) hx
  have htop : s.pc.toNat ≤ 0xFFE := by
    simp only [State.ea, ← hpc] at hin
    omega
  exact step_of_fetches (fetches_iff.2 ⟨hop, hmode, htop, (congrArg₂ wordOfBytes hhi hlo).symm⟩)

end Sys2Proof
end

section
/-! The display (R150 to R155): which cells a draw inverts and when it collides. -/

namespace Sys2Proof.Machine

theorem spriteRows_length (s : State) (n : Fin 16) : (spriteRows s n).length = n.val := by
  simp [spriteRows]

theorem getD_spriteRows (s : State) {n : Fin 16} {r : Nat} (h : r < n.val) :
    (spriteRows s n).getD r 0 = s.byteAt (s.ea r) := by
  simp [spriteRows, State.ea, List.getD_eq_getElem?_getD, h]

theorem eq_wrapPixel_iff (p : Pixel) (x y : Nat) : p = wrapPixel x y ↔ p.1.val = x % 64 ∧ p.2.val = y % 32 := by
  simp [wrapPixel, Prod.ext_iff, Fin.ext_iff]

/-- The cells the rasterizer flips are those the sprite covers (R151). -/
theorem mem_spritePixels_iff_covers (s : State) (x y : Reg) (n : Fin 16) (p : Pixel) :
    p ∈ spritePixels (s.getV x).toNat (s.getV y).toNat (spriteRows s n) ↔ SpriteCovers s x y n p := by
  rw [mem_spritePixels, SpriteCovers, spriteRows_length]
  refine exists_congr fun r => exists_congr fun b => and_congr_right fun hr => ?_
  rw [getD_spriteRows s hr, eq_wrapPixel_iff]

/-- A covered cell is inverted, and no other (R152). -/
theorem drawn_get_iff (s : State) (x y : Reg) (n : Fin 16) (p : Pixel) :
    FrameBuffer.get (s.drawn x y n).fb p = true ↔ (FrameBuffer.get s.fb p = true ↔ ¬ SpriteCovers s x y n p) := by
  obtain ⟨hget, -⟩ := drawSprite_spec (s.getV x) (s.getV y) (spriteRows s n) s.fb
    (by rw [spriteRows_length]; omega)
  change FrameBuffer.get (drawSprite _ _ _ _).1 p = true ↔ _
  rw [hget, ← mem_spritePixels_iff_covers]
  by_cases hcover : p ∈ spritePixels (s.getV x).toNat (s.getV y).toNat (spriteRows s n)
  · simp [hcover]
  · simp [hcover]

theorem drawn_getV_flag (s : State) (x y : Reg) (n : Fin 16) :
    (s.drawn x y n).getV 15 = b2i (drawSprite (s.getV x) (s.getV y) (spriteRows s n) s.fb).2 :=
  State.getV_setV_same _ regF _

theorem b2i_eq_one {c : Bool} : b2i c = 1 ↔ c = true := by
  cases c <;> decide

theorem b2i_eq_one_or_zero (c : Bool) : b2i c = 1 ∨ b2i c = 0 := by
  cases c <;> decide

/-- `VF` is 1 exactly when a covered cell was set (R151). -/
theorem drawn_flag_iff (s : State) (x y : Reg) (n : Fin 16) :
    (s.drawn x y n).getV 15 = 1 ↔ ∃ p, SpriteCovers s x y n p ∧ FrameBuffer.get s.fb p = true := by
  obtain ⟨-, hhit⟩ := drawSprite_spec (s.getV x) (s.getV y) (spriteRows s n) s.fb
    (by rw [spriteRows_length]; omega)
  simp only [drawn_getV_flag, b2i_eq_one, hhit, mem_spritePixels_iff_covers]

theorem drawn_flag (s : State) (x y : Reg) (n : Fin 16) :
    (s.drawn x y n).getV 15 = 1 ∨ (s.drawn x y n).getV 15 = 0 := by
  rw [drawn_getV_flag]
  exact b2i_eq_one_or_zero _

/-- A completed draw had no row to read, or the last one inside the address space. -/
theorem drawn_of_next {s t : State} {x y : Reg} {n : Fin 16} (h : exec (.drw x y n) s = .next t) :
    (n.val = 0 ∨ s.ea (n.val - 1) ≤ 0xFFF) ∧ t = s.drawn x y n := by
  obtain ⟨hin, rfl⟩ := execDrw_next h
  exact ⟨hin.imp_right Nat.le_of_lt_succ, rfl⟩

/-- The covered cells depend on `I`, memory and the two origin registers alone. -/
theorem spriteCovers_congr {s u : State} {x y : Reg} (hi : u.i = s.i) (hmem : u.mem = s.mem)
    (hx : u.getV x = s.getV x) (hy : u.getV y = s.getV y) (n : Fin 16) (p : Pixel) :
    SpriteCovers u x y n p ↔ SpriteCovers s x y n p := by
  simp only [SpriteCovers, State.byteAt, State.ea, hi, hmem, hx, hy]

/-- A full row at column 63 of row 0 covers that column and, past the edge, columns 0 to 6 (R155). -/
theorem spriteCovers_edge {s : State} {x y : Reg} (hrow : s.byteAt s.i.toNat = 0xFF) (hx : s.getV x = 63)
    (hy : s.getV y = 0) (p : Pixel) :
    SpriteCovers s x y 1 p ↔ p.2.val = 0 ∧ (p.1.val = 63 ∨ p.1.val ≤ 6) := by
  have hbit : ∀ b < 8, (0xFF : Byte).getLsbD (7 - b) = true := by decide
  have hcol : (s.getV x).toNat = 63 := congrArg BitVec.toNat hx
  have hline : (s.getV y).toNat = 0 := congrArg BitVec.toNat hy
  constructor
  · rintro ⟨r, b, hr, hb, -, h1, h2⟩
    have hr0 : r = 0 := Nat.lt_one_iff.1 hr
    rw [hcol] at h1
    rw [hline, hr0] at h2
    exact ⟨h2, by omega⟩
  · rintro ⟨h2, h1⟩
    have hp := p.1.isLt
    refine ⟨0, (p.1.val + 1) % 64, Nat.one_pos, by omega, ?_, by rw [hcol]; omega, by rw [hline, h2]⟩
    have hfirst : s.byteAt (s.ea 0) = 0xFF := hrow
    rw [hfirst]
    exact hbit _ (by omega)

end Sys2Proof.Machine

namespace Sys2Proof

open Machine Laws

/-- Settles O33: a blank frame buffer and a report, over the frame of the two writes. -/
theorem clearUnsetsEveryCell : Obligations.ClearUnsetsEveryCell := by
  refine ⟨encodes_of_word (by decide), fun s => ⟨_, rfl, FrameBuffer.get_blank, rfl, ?_⟩⟩
  exact exec_frame (i := .cls) rfl

/-- Settles O34: the rasterizer flips distinct cells, the covered ones. -/
theorem drawFlipsTheSprite : Obligations.DrawFlipsTheSprite := by
  refine ⟨encodes_of_family fun op hf => ?_, fun s x y n h => ?_, execDrw_fault⟩
  · simp [decodeByFamily, hf]
  · exact ⟨_, execDrw_ok s x y n h, drawn_get_iff s x y n, drawn_flag_iff s x y n, drawn_flag s x y n, rfl,
      onlyChanges_drawn s x y n⟩

/-- Settles O35: a cell inverted twice is as before; on unset cells the first draw sets the covered ones, so that the
second collides with each of them. -/
theorem spriteProperties : Obligations.SpriteProperties := by
  refine ⟨fun s t u x y n hdraw hfb hi hmem hx hy => ?_, fun s x y hi hrow hx hy hclear => ?_⟩
  · obtain ⟨hin, rfl⟩ := drawn_of_next hdraw
    have hcovers (p : Pixel) := spriteCovers_congr hi hmem hx hy n p
    have hea (k : Nat) : u.ea k = s.ea k := congrArg (fun w : Word => w.toNat + k) hi
    refine ⟨_, execDrw_ok u x y n (hea _ ▸ hin), FrameBuffer.ext_get fun p => ?_, fun hunset => ⟨?_, ?_⟩⟩
    · rw [Bool.eq_iff_iff, drawn_get_iff, hcovers, hfb, drawn_get_iff]
      by_cases hp : SpriteCovers s x y n p <;> simp [hp]
    · refine (drawn_flag s x y n).resolve_left fun hflag => ?_
      obtain ⟨p, hp, hset⟩ := (drawn_flag_iff s x y n).1 hflag
      simp [hunset p hp] at hset
    · rw [drawn_flag_iff]
      refine exists_congr fun p => ?_
      rw [hcovers, hfb, drawn_get_iff]
      exact and_iff_left_of_imp fun hp => by simp [hp, hunset p hp]
  · refine ⟨_, execDrw_ok s x y 1 (.inr hi), fun p => ?_⟩
    rw [drawn_get_iff, hclear, spriteCovers_edge hrow hx hy]
    simp only [Bool.false_eq_true, false_iff, not_not]

end Sys2Proof
end

section
/-! The address of a glyph (R142), the key instructions (R160 to R163) and the no-ops (R100, R109). -/

namespace Sys2Proof

open Machine Laws

/-- Settles O26: five times a byte fits in 16 bits. -/
theorem glyphAddress : Obligations.GlyphAddress := by
  refine ⟨encodes_of_family_low fun op hf hlow => ?_, fun s x => ⟨_, rfl, ?_, onlyChanges_setI s _⟩⟩
  · simp [decodeByFamily, decodeMisc, hf, hlow]
  · rw [State.setI_i, glyphAddr, BitVec.toNat_ofNat]
    exact Nat.mod_eq_of_lt (by simp only [fontBase, glyphHeight]; omega)

/-- Settles O36: each is a `skipIf` on the answer or on its negation; a scripted answer is the one the query gives. -/
theorem keySkips : Obligations.KeySkips := by
  refine ⟨encodes_of_family_low fun op hf hlow => ?_, encodes_of_family_low fun op hf hlow => ?_,
    fun s x => ⟨_, rfl, rfl, exec_frame (i := .skp x) rfl⟩,
    fun s x => ⟨_, rfl, ?_, exec_frame (i := .sknp x) rfl⟩, fun s k b rest h => ?_⟩
  · simp [decodeByFamily, hf, hlow]
  · simp [decodeByFamily, hf, hlow]
  · cases hkey : s.keyDown (s.getV x) <;> simp
  · rw [State.keyDown, h]

/-- Settles O37: the mode is the one thing written, and no query is made. -/
theorem keyWaitSuspends : Obligations.KeyWaitSuspends := by
  refine ⟨encodes_of_family_low fun op hf hlow => ?_, fun s x => ⟨_, rfl, rfl, onlyChanges_setMode s _⟩⟩
  simp [decodeByFamily, decodeMisc, hf, hlow]

/-- The words of family 0 but its two fixed ones, and the unrecognised words, are no-ops (R100, R109). -/
theorem decode_noOp {op : Word}
    (h : (op &&& 0xF000 = 0x0000 ∧ op ≠ 0x00E0 ∧ op ≠ 0x00EE) ∨ unrecognised op = true) :
    (∃ nnn, decode op = .sys nnn) ∨ ∃ w, decode op = .undef w := by
  obtain ⟨hsys, -⟩ := legacyAndUnrecognisedWords op
  obtain ⟨hf, hcls, hret⟩ | h := h
  · have hfamily : op.toNat / 4096 * 4096 = 0 := (toNat_mask_family op).symm.trans (congrArg BitVec.toNat hf)
    have hne {w : Word} (hw : op ≠ w) : op.toNat ≠ w.toNat := fun e => hw (BitVec.eq_of_toNat_eq e)
    exact .inl (hsys.2 ⟨by omega, hne hcls, hne hret⟩)
  · exact .inr ⟨op, decode_of_unrecognised h⟩

/-- Settles O11: the fetch has advanced `PC`, and the instruction leaves the state as it is. -/
theorem noOpsChangeNothing : Obligations.NoOpsChangeNothing := by
  refine ⟨fun s nnn => ⟨_, rfl, onlyChanges_nil s⟩, fun s w => ⟨_, rfl, onlyChanges_nil s⟩,
    fun s op hfetch hop => ?_⟩
  refine ⟨s.fetched, ?_, toNat_advanced_pc hfetch, ?_⟩
  · rw [step_of_fetches hfetch]
    obtain ⟨nnn, h⟩ | ⟨w, h⟩ := decode_noOp hop
    all_goals
      rw [h]
      rfl
  · exact onlyChanges_mono (by simp) (onlyChanges_append (onlyChanges_begin s) (onlyChanges_setPc _ _))

end Sys2Proof
end

section
/-! The host's operations on the whole state: `KeyEvent` (R164), `TickTimers` (R182), `Reset` (R195), `LoadProgram`
(R197, R198), and each of them on a faulted machine (R177). -/

namespace Sys2Proof

open Machine

/-- Settles O38: by the mode; a key number fits in a byte. -/
theorem keyEventEndsTheWait : Obligations.KeyEventEndsTheWait := by
  refine ⟨fun s k r hop hmode => ?_, fun s k hop hmode => ?_⟩
  · have hkey : (BitVec.ofNat 8 k.val).toNat = k.val := Nat.mod_eq_of_lt (by omega)
    have hevent := hostKeyEvent_awaiting (s := s.begin) hmode k
    refine ⟨_, (step_keyEvent hop).trans (congrArg _ hevent), ?_, rfl, ?_⟩
    · rw [State.setMode_getV, State.getV_setV_same, hkey]
    · exact onlyChanges_mono (by simp) (onlyChanges_append (onlyChanges_begin s)
        (onlyChanges_append (onlyChanges_setV _ _ _) (onlyChanges_setMode _ _)))
  · have hidle := hostKeyEvent_not_awaiting (s := s.begin) hmode k
    exact ⟨_, (step_keyEvent hop).trans (congrArg _ hidle), onlyChanges_begin s⟩

/-- A timer's tick in the statement's spelling. -/
theorem toNat_tickDown_eq_ite (b : Byte) : (tickDown b).toNat = if 0 < b.toNat then b.toNat - 1 else 0 := by
  rw [toNat_tickDown]
  split <;> omega

/-- Settles O40: by the mode; one tick of each timer. -/
theorem tickCountsDown : Obligations.TickCountsDown := by
  refine ⟨fun s hop hmode => ?_, fun s c hop hmode => ?_⟩
  · have htick := hostTickTimers_ok (s := s.begin) hmode
    refine ⟨_, (step_tickTimers hop).trans (congrArg _ htick), toNat_tickDown_eq_ite _, toNat_tickDown_eq_ite _, ?_⟩
    exact onlyChanges_mono (by simp) (onlyChanges_append (onlyChanges_begin s)
      (onlyChanges_append (onlyChanges_setDt _ _) (onlyChanges_setSt _ _)))
  · have hidle := hostTickTimers_faulted (s := s.begin) hmode
    exact ⟨_, (step_tickTimers hop).trans (congrArg _ hidle), onlyChanges_begin s⟩

/-- Settles O42: the state `Reset` leaves, field by field. -/
theorem resetOperation : Obligations.ResetOperation := fun _ hop =>
  ⟨_, step_reset hop, rfl, rfl, rfl, rfl, rfl, fun _ => rfl, rfl, rfl, fun _ => rfl, rfl, rfl, rfl, rfl⟩

/-- Above the font an unlisted byte reads as the fill (R37). -/
theorem bootByte_above_font {a : Nat} (h : 0x050 ≤ a) : bootByte a = 0x00 :=
  List.getD_eq_default _ _ h

/-- Settles O43: nothing is listed in memory, so each byte is the boot contents' one. -/
theorem resetState : Obligations.ResetState := by
  refine ⟨rfl, rfl, rfl, rfl, rfl, ?_, rfl, FrameBuffer.get_blank, by decide, fun a ha => bootByte_above_font ha⟩
  decide

/-- The addresses of an image of `n` bytes (R197), as parts. -/
theorem mem_imageParts {n k : Nat} (h : 0x200 ≤ k ∧ k < 0x200 + n) :
    Part.mem k ∈ (List.range n).map (fun j => .mem (0x200 + j)) :=
  List.mem_map.2 ⟨k - 0x200, List.mem_range.2 (by omega), congrArg Part.mem (by omega)⟩

/-- Settles O44: by the size of the image; a placed byte is read back at its own address. -/
theorem loadProgramPlacesOrRefuses : Obligations.LoadProgramPlacesOrRefuses := by
  refine ⟨fun s bytes hop hmode hsize => ?_, fun s bytes hop hmode hsize => ?_⟩
  · have hload := hostLoadProgram_ok (s := s.begin) (bytes := bytes) hmode hsize
    refine ⟨_, (step_loadProgram hop).trans (congrArg _ hload), fun j hj => ?_, ?_⟩
    · change Memory.lookup (placeBytes progBase bytes s.mem) (progBase + j) = bytes[j]
      rw [lookup_placeBytes, if_pos (by omega), Nat.add_sub_cancel_left, List.getD_eq_getElem bytes 0 hj]
    · refine onlyChanges_trans (onlyChanges_mono (by simp) (onlyChanges_begin s)) (onlyChanges_mem _ _ fun k hk => ?_)
      have hout : ¬ (progBase ≤ k ∧ k < progBase + bytes.length) := fun hin =>
        hk (List.mem_cons_of_mem _ (List.mem_cons_of_mem _ (mem_imageParts hin)))
      rw [lookup_placeBytes, if_neg hout]
      rfl
  · have hload := hostLoadProgram_tooLarge (s := s.begin) (bytes := bytes) hmode hsize
    refine ⟨_, (step_loadProgram hop).trans (congrArg _ hload), rfl, ?_⟩
    exact onlyChanges_trans (onlyChanges_begin s) (onlyChanges_mono (by simp) (onlyChanges_setReport _ _))

/-- Settles O45: operation by operation, each on a faulted machine. -/
theorem faultedMachineOnlyResets : Obligations.FaultedMachineOnlyResets := by
  intro s c hmode
  refine ⟨fun hop => step_faulted hop hmode, fun hop => ⟨_, step_reset hop, rfl⟩, fun hcycle hreset => ?_⟩
  refine ⟨s.begin, ?_, onlyChanges_begin s⟩
  have hbegin : s.begin.mode = .faulted c := hmode
  cases hop : s.nextOp with
  | cycle => exact absurd hop hcycle
  | reset => exact absurd hop hreset
  | loadProgram bytes => exact (step_loadProgram hop).trans (congrArg _ (hostLoadProgram_faulted hbegin bytes))
  | tickTimers => exact (step_tickTimers hop).trans (congrArg _ (hostTickTimers_faulted hbegin))
  | keyEvent k =>
    have hnot : ∀ r, s.begin.mode ≠ .awaitingKey r := fun r hr => by cases hbegin.symm.trans hr
    exact (step_keyEvent hop).trans (congrArg _ (hostKeyEvent_not_awaiting hnot k))

end Sys2Proof
end
